-- ==== Sys2Proof/Word.lean ====
section
/-! DEFINITION. The widths of the block and its total arithmetic primitives (spec/00_scope.md R5, R6).
Nothing in the block is signed (R6), so no signed operation stands here. -/

namespace Sys2Proof

/-- An 8-bit value: a stream byte, a cell of `TXBUF` (R6, R40). -/
abbrev Byte := BitVec 8

/-- A 16-bit value: `CLOCK`, `ACTION`, `PERIOD`, `NEXT_RUN` (R5: `CLOCK_W`, `ACTION_W`, `PERIOD_W`). -/
abbrev U16 := BitVec 16

/-- A 32-bit value: `BAUD` (R5: `BAUD_W`). -/
abbrev U32 := BitVec 32

/-- `add16(a, b) = (a + b) mod 65536`, carry discarded (R6). -/
def add16 (a b : U16) : U16 := a + b

/-- `sub16(a, b) = (a - b) mod 65536` (R6). -/
def sub16 (a b : U16) : U16 := a - b

/-- `inc16(a) = add16(a, 1)` (R6). -/
def inc16 (a : U16) : U16 := add16 a 1

/-- `ltu(a, b) = a < b` as unsigned integers (R6). -/
def ltu (a b : U16) : Bool := decide (a.toNat < b.toNat)

end Sys2Proof
end

