-- ==== Sys2Proof/Config.lean ====
section
/-! DEFINITION. The parameters of the block (spec/00_scope.md R5): the fixed ones as constants, the two
that the spec leaves OPEN (`TXCAP`, `TICK_HZ`; spec/92_eei_decisions.md D7, D27) as a record that the
state carries and no step changes. -/

namespace Sys2Proof

/-- `NTASK` (R5): the number of slots of the Task Table. -/
abbrev ntask : Nat := 10

/-- `SNAP_MAX` (R5): the bound of the snapshot list a `CAPTURE` builds. -/
abbrev snapMax : Nat := 10

/-- `SEND_MAX` (R5): the longest text of one `SEND`. -/
abbrev sendMax : Nat := 255

/-- The longest command in bytes (R65): a `SEND` of `SEND_MAX` bytes. -/
abbrev maxCommandBytes : Nat := 257

/-- The OPEN parameters of one instance of the block (R5, D7, D27). -/
structure Config where
  /-- `TXCAP`: the capacity of the transmit ring buffer in bytes. -/
  txcap : Nat
  /-- `TICK_HZ`: the tick rate; no rule of the spec reads it. -/
  tickHz : Nat
deriving DecidableEq, Repr

/-- The ranges R5 gives the OPEN parameters: `2 <= TXCAP <= 256`, `TICK_HZ` positive. -/
abbrev Config.wf (c : Config) : Prop := 2 ≤ c.txcap ∧ c.txcap ≤ 256 ∧ 0 < c.tickHz

/-- `IDX_W = ceil(log2(TXCAP))` (R5): the width of `HEAD` and `TAIL`. -/
def Config.idxW (c : Config) : Nat := Nat.log2 (c.txcap - 1) + 1

/-- Free value behind `TXCAP` (log entry 1): nothing is known of it. -/
opaque Config.freeTxcap : Nat

/-- Free value behind `TICK_HZ` (log entry 2): nothing is known of it. -/
opaque Config.freeTickHz : Nat

/-- The parameters of the instance at hand: any `TXCAP` in `2 .. 256` and any positive `TICK_HZ`, and a
proof can rest on no one of them (D7, D27; log entries 1, 2). -/
def Config.machine : Config where
  txcap := 2 + Config.freeTxcap % 255
  tickHz := 1 + Config.freeTickHz

end Sys2Proof
end

