-- ==== Sys2Proof/Syntax.lean ====
section
/-! DEFINITION. The six commands of the block: one constructor per row of spec/opcode_table.json
(spec/30_encoding.md R63). The two events `@TICK` and `@DRAIN` have no encoding and are no commands
(R67); the pseudo-instructions `SCHEDRUN` and `DELAY` have no opcode (R69). -/

namespace Sys2Proof

/-- A command of the block with its operands (R62, R63). No command names a slot, an index or a bit. -/
inductive Instr where
  /-- `TINIT` (R80): timer initialisation. -/
  | tinit
  /-- `TADD action, period` (R81): register a task. -/
  | tadd (action period : U16)
  /-- `RDCLK` (R86): read the clock. -/
  | rdclk
  /-- `CAPTURE` (R84): capture the ready tasks. -/
  | capture
  /-- `SINIT baud` (R100): serial initialisation. -/
  | sinit (baud : U32)
  /-- `SEND n, text` (R101): enqueue a text; `n` is the length of `text` (R62). -/
  | send (text : List Byte)
deriving DecidableEq, Repr

end Sys2Proof
end

