-- ==== Sys2Proof/WellFormed.lean ====
section
/-! DEFINITION. Which terms of `Instr` are commands of the block. Every bit pattern of every operand is
legal (spec/30_encoding.md R62); the only check is that the text of a `SEND` fits its length byte
(R61, R65). -/

namespace Sys2Proof

/-- The command can be encoded: a `SEND` carries at most 255 bytes (R65). -/
def Instr.wellFormed : Instr → Bool
  | .tinit => true
  | .tadd _ _ => true
  | .rdclk => true
  | .capture => true
  | .sinit _ => true
  | .send text => decide (text.length ≤ sendMax)

end Sys2Proof
end

