-- ==== Sys2Proof/Decode.lean ====
section
/-! DEFINITION. The command encoding (spec/30_encoding.md): byte order (R41, R62), formats (R61), opcode
map (R63), the decoder, total on byte sequences (R64, R65, R70), and after it the encoder. At the end
the numbering of spec/opcode_table.json is connected to the decoder. -/

namespace Sys2Proof

/-! ### Byte order (R41) -/

/-- The 16-bit value `{hi, lo}` of two stream bytes, the low byte first in the stream (R41, R62). -/
def le16 (lo hi : Byte) : U16 := hi ++ lo

/-- The 32-bit value `{b3, b2, b1, b0}` of four stream bytes, `b0` first in the stream (R41, R62). -/
def le32 (b0 b1 b2 b3 : Byte) : U32 := b3 ++ b2 ++ b1 ++ b0

/-- Byte `k` of a value: its bits `8k+7 .. 8k` (R6, R61). -/
def byteOf {w : Nat} (k : Nat) (v : BitVec w) : Byte := v.extractLsb' (8 * k) 8

/-- A 16-bit value as it travels: `v[7:0]`, then `v[15:8]` (R41). -/
def bytes16 (v : U16) : List Byte := [byteOf 0 v, byteOf 1 v]

/-- A 32-bit value as it travels, least significant byte first (R41). -/
def bytes32 (v : U32) : List Byte := [byteOf 0 v, byteOf 1 v, byteOf 2 v, byteOf 3 v]

/-- A command of bytes `B0, B1, ...` viewed as the integer `C = B0 + B1*2^8 + ...` (R61). -/
def commandInteger : List Byte → Nat
  | [] => 0
  | b :: bs => b.toNat + 256 * commandInteger bs

/-! ### Opcode map (R63) and formats (R61) -/

/-- The six operations an opcode byte can name (R63). -/
inductive Operation where
  | tinit | tadd | rdclk | capture | sinit | send
deriving DecidableEq, Repr

/-- The opcode map (R63); the decoder matches the whole byte. -/
def opcodeMap : List (Byte × Operation) :=
  [(0x01, .tinit), (0x02, .tadd), (0x03, .rdclk), (0x04, .capture), (0x10, .sinit), (0x11, .send)]

/-- The operation an opcode byte names; none for the 250 illegal bytes (R64). -/
def operationOf (b0 : Byte) : Option Operation :=
  (opcodeMap.find? fun row => row.1 == b0).map Prod.snd

/-- The four command formats (R61). -/
inductive Format where
  | z | w2 | l | v
deriving DecidableEq, Repr

/-- The format the opcode alone selects (R61, R63). -/
def Operation.format : Operation → Format
  | .tinit => .z
  | .tadd => .w2
  | .rdclk => .z
  | .capture => .z
  | .sinit => .l
  | .send => .v

/-- How long the command is that begins with these bytes, as far as they tell it: from `B0` alone for
the formats `Z`, `W2` and `L`, from `B0` and `B1` for `V` (R65). -/
def commandLength : List Byte → Option Nat
  | [] => none
  | b0 :: rest =>
    match (operationOf b0).map Operation.format with
    | none => none
    | some .z => some 1
    | some .w2 => some 5
    | some .l => some 5
    | some .v => rest.head?.map fun n => 2 + n.toNat

/-! ### The decoder (R70) -/

/-- What the decoder answers: exactly one of these three (R70). -/
inductive DecodeResult where
  /-- The bytes are a proper prefix of a command. -/
  | needMore
  /-- `B0` is not an opcode; the byte is recorded (R121). -/
  | illegal (b0 : Byte)
  /-- A command and the bytes after it. -/
  | ok (i : Instr) (rest : List Byte)
deriving DecidableEq, Repr

/-- Operands of format `W2` (R61, R62): `a = {B2, B1}`, `b = {B4, B3}`. -/
def decodeW2 (mk : U16 → U16 → Instr) : List Byte → DecodeResult
  | b1 :: b2 :: b3 :: b4 :: rest => .ok (mk (le16 b1 b2) (le16 b3 b4)) rest
  | _ => .needMore

/-- Operand of format `L` (R61, R62): `v = {B4, B3, B2, B1}`. -/
def decodeL (mk : U32 → Instr) : List Byte → DecodeResult
  | b1 :: b2 :: b3 :: b4 :: rest => .ok (mk (le32 b1 b2 b3 b4)) rest
  | _ => .needMore

/-- Operands of format `V` (R61, R62): `n = B1`, then `n` payload bytes, first byte first. -/
def decodeV (mk : List Byte → Instr) : List Byte → DecodeResult
  | [] => .needMore
  | n :: bs =>
    if (bs.take n.toNat).length = n.toNat then .ok (mk (bs.take n.toNat)) (bs.drop n.toNat) else .needMore

/-- The decoder, total on byte sequences (R64, R65, R70). -/
def decode : List Byte → DecodeResult
  | [] => .needMore
  | b0 :: bs =>
    match operationOf b0 with
    | none => .illegal b0
    | some .tinit => .ok .tinit bs
    | some .tadd => decodeW2 .tadd bs
    | some .rdclk => .ok .rdclk bs
    | some .capture => .ok .capture bs
    | some .sinit => decodeL .sinit bs
    | some .send => decodeV .send bs

/-! ### The encoder (R61 to R63) -/

/-- The bytes of a command in stream order (R61, R62, R63); for a well-formed command `n` is the text's
length. -/
def encode : Instr → List Byte
  | .tinit => [0x01]
  | .tadd action period => 0x02 :: (bytes16 action ++ bytes16 period)
  | .rdclk => [0x03]
  | .capture => [0x04]
  | .sinit baud => 0x10 :: bytes32 baud
  | .send text => 0x11 :: BitVec.ofNat 8 text.length :: text

/-! ### The numbering of spec/opcode_table.json -/

/-- The first `n` bytes `B0, B1, ...` of a command integer `C` (R61: byte `Bk` is `C[8k+7:8k]`). -/
def integerBytes : Nat → Nat → List Byte
  | 0, _ => []
  | n + 1, c => BitVec.ofNat 8 c :: integerBytes n (c / 256)

/-- The bytes of the integer `C` whose low `nbits` bits are those of `w` and whose other bits are 0, up
to the longest command. -/
def tableBytes (nbits w : Nat) : List Byte := integerBytes maxCommandBytes (w % 2 ^ nbits)

/-- The command the decoder reads from an opcode-table word (bit 0 is the least significant bit of
`B0`). -/
def decodeTableWord (nbits w : Nat) : Option Instr :=
  match decode (tableBytes nbits w) with
  | .ok i _ => some i
  | .illegal _ => none
  | .needMore => none

/-- The stream bytes of that one command, as its first bytes tell its length (R65); `B0` alone where it
is no opcode. -/
def tableCommand (nbits w : Nat) : List Byte :=
  let bs := tableBytes nbits w
  bs.take ((commandLength bs).getD 1)

end Sys2Proof
end

