-- ==== Sys2Proof/Machine/State.lean ====
section
/-! DEFINITION. The state of the block as plain data (spec/10_state.md R10), the two observation traces
(R21), the host's command stream (spec/20_memory.md R40), the environment's turns (spec/00_scope.md R2),
the reasons a step can stop (spec/60_exceptions.md R121), and the state after reset (R26). -/

namespace Sys2Proof.Machine

/-- The fields of an occupied task slot (R13); an empty slot holds none of them (R12). -/
structure Task where
  /-- `ACTION`: the opaque action token. -/
  action : U16
  /-- `PERIOD`: 0 marks a background task. -/
  period : U16
  /-- `NEXT_RUN`: the tick timestamp at which the task next becomes eligible. -/
  nextRun : U16
  /-- `READY`: eligible for the next capture. -/
  ready : Bool
deriving DecidableEq, Repr

/-- The byte array of the ring buffer as (index, byte) cells in canonical form: indices strictly rising;
an index without a cell has never been written and holds no value (R18, R26; log entry 9). -/
abbrev Memory := List Host.Cell

/-- The two events of the block (R67, R122). -/
inductive Event where
  /-- `@TICK`: one pulse of the tick source (R83). -/
  | tick
  /-- `@DRAIN`: the transmitter's register is empty (R103). -/
  | drain
deriving DecidableEq, Repr

/-- Which agent acts at a step boundary (R2), as the environment's input (R27, R129). -/
inductive Turn where
  /-- The host presents the next command of its stream. -/
  | host
  /-- The tick source gives one pulse on `tick`. -/
  | tick
  /-- The transmitter's `txe` is 1 and the environment lets the drain event come. -/
  | txe
deriving DecidableEq, Repr

/-- The state of the block and of its boundary. -/
structure State where
  /-- The OPEN parameters (R5, R27): no step changes them (log entry 1). -/
  cfg : Config
  /-- `CLOCK` (R11). -/
  clock : U16
  /-- `T[0..9]` (R12, R13); `OCC = 1` is `some`. -/
  tasks : Vector (Option Task) 10
  /-- `TRUN` (R16). -/
  trun : Bool
  /-- `TIE` (R16). -/
  tie : Bool
  /-- `GIE` (R16). -/
  gie : Bool
  /-- `SEN` (R17). -/
  sen : Bool
  /-- `BAUD` (R17). -/
  baud : U32
  /-- `TXBUF[0..TXCAP-1]` (R18). -/
  txbuf : Memory
  /-- `HEAD` (R18), an index below `TXCAP` (log entry 14). -/
  head : Nat
  /-- `TAIL` (R18), an index below `TXCAP` (log entry 14). -/
  tail : Nat
  /-- `DRIE` (R20). -/
  drie : Bool
  /-- `RESP` (R21): the bytes sent on the response port, oldest first. -/
  resp : List Byte
  /-- `TXOUT` (R21): the bytes written to the transmitter, oldest first. -/
  txout : List Byte
  /-- The rest of the host's command stream (R40, R60; log entry 3). -/
  cmdIn : List Byte
  /-- The environment's choice of who acts next, soonest first; when it is empty the host acts
  (R2, R27; log entry 4). -/
  turns : List Turn
deriving DecidableEq, Repr

/-- Why a step stops with a fault. The first two are the spec's closed list (R121); the last two are the
model's own and no run from reset meets them (R50; log entry 9). -/
inductive Fault where
  /-- `ILLEGAL_OPCODE` (R64), raised by the command port; records `B0`. Safe: the model has no behaviour
  where the hardware might have some (D13). -/
  | illegalOpcode (b0 : Byte)
  /-- `TRUNCATED_COMMAND` (R70), raised by the command port; records the bytes consumed. Safe (D13). -/
  | truncatedCommand (consumed : List Byte)
  /-- Raised by `MemRead` of a cell that was never written (R26, R50). Safe. -/
  | txbufUnwritten (index : Nat)
  /-- Raised by `MemRead` and `MemWrite` of an index outside `0 .. TXCAP-1` (R7, R40). Safe. -/
  | txbufOutOfRange (index : Nat)
deriving DecidableEq, Repr

/-- Why a step is refused. -/
inductive Refusal where
  /-- Raised by `exec` alone, for a command that has no meaning in the model yet. Safe. -/
  | notModelled (mnemonic : String)
  /-- `TINIT_REPEATED` (R80, R121), raised by `TINIT` when `TRUN = 1`. Safe (D14). -/
  | tinitRepeated
  /-- `SINIT_REPEATED` (R100, R121), raised by `SINIT` when `SEN = 1`. Safe (D14). -/
  | sinitRepeated
  /-- `SEND_BEFORE_SINIT` (R101, R121), raised by `SEND` when `SEN = 0`. Safe (D14). -/
  | sendBeforeSinit
deriving DecidableEq, Repr

/-- The outcome of a step of this machine (R2). -/
abbrev StepOutcome := Host.Outcome State Fault Refusal

/-! ### One update per field -/

def State.setClock (s : State) (v : U16) : State := { s with clock := v }
def State.setTasks (s : State) (v : Vector (Option Task) 10) : State := { s with tasks := v }
def State.setTrun (s : State) (v : Bool) : State := { s with trun := v }
def State.setTie (s : State) (v : Bool) : State := { s with tie := v }
def State.setGie (s : State) (v : Bool) : State := { s with gie := v }
def State.setSen (s : State) (v : Bool) : State := { s with sen := v }
def State.setBaud (s : State) (v : U32) : State := { s with baud := v }
def State.setTxbuf (s : State) (v : Memory) : State := { s with txbuf := v }
def State.setHead (s : State) (v : Nat) : State := { s with head := v }
def State.setTail (s : State) (v : Nat) : State := { s with tail := v }
def State.setDrie (s : State) (v : Bool) : State := { s with drie := v }
def State.setResp (s : State) (v : List Byte) : State := { s with resp := v }
def State.setTxout (s : State) (v : List Byte) : State := { s with txout := v }
def State.setCmdIn (s : State) (v : List Byte) : State := { s with cmdIn := v }
def State.setTurns (s : State) (v : List Turn) : State := { s with turns := v }

/-! ### Reset (R26, R140) -/

/-- The state after reset of an instance with the parameters `c` (R26). No command is presented and the
environment has named no turn (log entry 10). -/
def State.resetWith (c : Config) : State where
  cfg := c
  clock := 0x0000
  tasks := #v[none, none, none, none, none, none, none, none, none, none]
  trun := false
  tie := false
  gie := false
  sen := false
  baud := 0x00000000
  txbuf := []
  head := 0
  tail := 0
  drie := false
  resp := []
  txout := []
  cmdIn := []
  turns := []

/-- The machine right after reset (R26, R140), for any capacity and tick rate. -/
def State.reset : State := State.resetWith Config.machine

end Sys2Proof.Machine
end

