-- ==== Sys2Proof/Machine/Operands.lean ====
section
/-! DEFINITION. The operand forms of the block: ring indices and the FIFO's only addressing mode
(spec/41_serial_tx.md R102, spec/00_scope.md R6), the response formats (spec/30_encoding.md R66, R69)
and the reading of a response by the host. The operands of commands are assembled in Decode.lean. -/

namespace Sys2Proof.Machine

/-! ### Ring indices (R6) -/

/-- `nexti(i) = (i + 1) mod TXCAP` (R6). -/
def nexti (cap i : Nat) : Nat := (i + 1) % cap

/-- `count(h, t) = (h - t) mod TXCAP` (R6) for indices below `TXCAP`: the bytes held. -/
def ringCount (cap h t : Nat) : Nat := (h + cap - t) % cap

/-- `free(h, t) = (TXCAP - 1) - count(h, t)` (R6): the bytes that can still be appended. -/
def ringFree (cap h t : Nat) : Nat := (cap - 1) - ringCount cap h t

/-- The effective index of an append: `HEAD` (R102). -/
def appendIndex (s : State) : Nat := s.head

/-- The effective index of a remove: `TAIL` (R102). -/
def removeIndex (s : State) : Nat := s.tail

/-! ### Responses (R66) -/

/-- The response of `RDCLK`: `CLOCK[7:0]`, then `CLOCK[15:8]` (R66). -/
def clockResponse (clock : U16) : List Byte := bytes16 clock

/-- The response of `CAPTURE`: the count, then each token low byte first, in table order (R66). -/
def captureResponse (snap : List U16) : List Byte :=
  BitVec.ofNat 8 snap.length :: snap.flatMap bytes16

/-! ### The host's reading of a response (R66, R69) -/

/-- The result of `RDCLK` from its response bytes: `{r1, r0}` (R69). -/
def clockOfResponse : List Byte → Option U16
  | [r0, r1] => some (le16 r0 r1)
  | _ => none

/-- Byte pairs read as 16-bit tokens, low byte first; none for an odd number of bytes. -/
def tokensOfBytes : List Byte → Option (List U16)
  | [] => some []
  | [_] => none
  | lo :: hi :: rest => (tokensOfBytes rest).map (le16 lo hi :: ·)

/-- The snapshot list in a `CAPTURE` response: a count byte `k`, then `k` tokens (R66). -/
def tokensOfResponse : List Byte → Option (List U16)
  | [] => none
  | k :: rest =>
    match tokensOfBytes rest with
    | some snap => if snap.length = k.toNat then some snap else none
    | none => none

end Sys2Proof.Machine
end

