-- ==== Sys2Proof/Machine/Flags.lean ====
section
/-! DEFINITION. Every one-bit condition the block computes (spec/10_state.md R14, R19, R23;
spec/40_tick_scheduler.md R82; spec/60_exceptions.md R123). -/

namespace Sys2Proof.Machine

/-- `DUE_WINDOW` (R5, D6). -/
def dueWindow : U16 := 0x8000

/-- The due comparator: `reached(now, nr) = ltu(sub16(now, nr), DUE_WINDOW)` (R82). -/
def reached (now nextRun : U16) : Bool := ltu (sub16 now nextRun) dueWindow

/-- The initial value of `READY` at registration: `period = 0` (R81). -/
def initialReady (period : U16) : Bool := period == 0

/-- The test of the tick scan for an occupied slot: `PERIOD != 0` and `reached(now, NEXT_RUN)` (R83). -/
def taskDue (now : U16) (t : Task) : Bool := t.period != 0 && reached now t.nextRun

/-- The buffer is empty: `HEAD = TAIL` (R19). -/
def ringEmpty (s : State) : Bool := s.head == s.tail

/-- The buffer is full: `nexti(HEAD) = TAIL` (R19). -/
def ringFull (s : State) : Bool := nexti s.cfg.txcap s.head == s.tail

/-- `tick_enabled = TRUN & TIE & GIE` (R123), read at a step boundary. -/
def tickEnabled (s : State) : Bool := s.trun && s.tie && s.gie

/-- `drain_enabled = GIE & DRIE & txe` (R123), read at a step boundary. -/
def drainEnabled (txe : Bool) (s : State) : Bool := s.gie && s.drie && txe

/-- The event can occur at this step boundary (R123); a `drain` is asked for only when `txe` is 1
(log entry 7). -/
def eventEnabled : Event → State → Bool
  | .tick, s => tickEnabled s
  | .drain, s => drainEnabled true s

end Sys2Proof.Machine
end

