-- ==== Sys2Proof/Machine/Ops.lean ====
section
/-! DEFINITION. The shared operations: the ring buffer's memory (spec/00_scope.md R7, spec/41_serial_tx.md
R102), the task table (spec/10_state.md R12, R13), the output traces (R21), and entering and leaving a
step, which is the block's whole exception mechanism (spec/60_exceptions.md R125, R126). -/

namespace Sys2Proof.Machine

/-! ### The byte array (R18, R40) -/

/-- The canonical form of the byte array: indices strictly rising. -/
abbrev Memory.wf (m : Memory) : Prop := m.Pairwise fun x y => x.1 < y.1

/-- The value of a cell; none where it was never written (R26, log entry 9). -/
def Memory.read : Memory → Nat → Option Byte
  | [], _ => none
  | c :: m, i => if c.1 = i then some c.2 else Memory.read m i

/-- Write one cell, keeping the canonical form. -/
def Memory.write : Memory → Nat → Byte → Memory
  | [], i, b => [(i, b)]
  | c :: m, i, b =>
    if i < c.1 then (i, b) :: c :: m
    else if i = c.1 then (i, b) :: m
    else c :: Memory.write m i b

/-- `MemRead(i, 1)` (R7): the byte `TXBUF[i]`, `0 <= i < TXCAP`. -/
def memRead (s : State) (i : Nat) : Except Fault Byte :=
  if i < s.cfg.txcap then
    match s.txbuf.read i with
    | some b => .ok b
    | none => .error (.txbufUnwritten i)
  else .error (.txbufOutOfRange i)

/-- `MemWrite(i, 1, b)` (R7): `TXBUF[i] <- b`, `0 <= i < TXCAP`. -/
def memWrite (s : State) (i : Nat) (b : Byte) : Except Fault State :=
  if i < s.cfg.txcap then .ok (s.setTxbuf (s.txbuf.write i b)) else .error (.txbufOutOfRange i)

/-- *Append* (R102): write at `HEAD`, then `HEAD <- nexti(HEAD)`. -/
def append (s : State) (b : Byte) : Except Fault State :=
  match memWrite s (appendIndex s) b with
  | .ok t => .ok (t.setHead (nexti t.cfg.txcap t.head))
  | .error f => .error f

/-- *Remove* (R102): read at `TAIL`, then `TAIL <- nexti(TAIL)`. -/
def remove (s : State) : Except Fault (Byte × State) :=
  match memRead s (removeIndex s) with
  | .ok b => .ok (b, s.setTail (nexti s.cfg.txcap s.tail))
  | .error f => .error f

/-- The loop of `SEND` (R101): append the bytes in order and stop at the first that finds the buffer
full. -/
def appendAll : List Byte → State → Except Fault State
  | [], s => .ok s
  | b :: bs, s =>
    if ringFull s then .ok s
    else match append s b with
      | .ok t => appendAll bs t
      | .error f => .error f

/-! ### The output traces (R7, R21) -/

/-- `resp(b0, b1, ...)`: append to `RESP` (R7). -/
def respond (s : State) (bs : List Byte) : State := s.setResp (s.resp ++ bs)

/-- `txwrite(b)`: append to `TXOUT`, the write to the hardware output register (R7). -/
def txwrite (s : State) (b : Byte) : State := s.setTxout (s.txout ++ [b])

/-! ### The task table (R12, R13) -/

/-- Apply a change to every slot in table order (R7: `for i in 0..9`). -/
def scanSlots (f : Option Task → Option Task) (v : Vector (Option Task) 10) : Vector (Option Task) 10 :=
  ⟨⟨v.toList.map f⟩, by simp⟩

/-- The index of the first empty slot (R81); none when all ten are occupied. -/
def firstEmpty (v : Vector (Option Task) 10) : Option Nat := v.toList.findIdx? Option.isNone

/-- The task a registration stores: `NEXT_RUN = period` (absolute), `READY = (period = 0)` (R81). -/
def newTask (action period : U16) : Task where
  action := action
  period := period
  nextRun := period
  ready := initialReady period

/-- Fill the first empty slot; nothing happens when there is none (R81). -/
def register (v : Vector (Option Task) 10) (t : Task) : Vector (Option Task) 10 :=
  match firstEmpty v with
  | some i => v.setIfInBounds i (some t)
  | none => v

/-- The tick's effect on one slot (R83). -/
def tickSlot (now : U16) : Option Task → Option Task
  | some t => if taskDue now t then some { t with nextRun := add16 now t.period, ready := true } else some t
  | none => none

/-- The token a slot contributes to the snapshot list: that of an occupied ready slot (R84). -/
def slotToken : Option Task → Option U16
  | some t => if t.ready then some t.action else none
  | none => none

/-- The snapshot list of a capture, in table order (R84). -/
def snapshot (v : Vector (Option Task) 10) : List U16 := v.toList.filterMap slotToken

/-- The capture's effect on one slot: a ready periodic task loses `READY` (R84). -/
def captureSlot : Option Task → Option Task
  | some t => if t.ready && t.period != 0 then some { t with ready := false } else some t
  | none => none

/-! ### Entering and leaving a step (R125, R126) -/

/-- Entry into the critical section: `GIE` reads 0 inside the step (R125). Nothing is saved in state. -/
def enterCritical (s : State) : State := s.setGie false

/-- The end of the step: `GIE` has its value at entry, unless the body has set it, as `TINIT` does
(R125; spec/90_conflicts.md C7). -/
def leaveCritical (atEntry : Bool) (s : State) : State := s.setGie (s.gie || atEntry)

/-- `atomic { body }` (R7): the body of every command and of every event. A fault or a refusal changes no
state (R121). -/
def atomic (body : State → StepOutcome) (s : State) : StepOutcome :=
  match body (enterCritical s) with
  | .next t => .next (leaveCritical s.gie t)
  | .fault f => .fault f
  | .refused r => .refused r

/-! ### The codes of the closed lists (R121, D25) -/

/-- The code of a fault; the model's own two have none (log entry 15). -/
def Fault.code : Fault → Option Nat
  | .illegalOpcode _ => some 1
  | .truncatedCommand _ => some 2
  | .txbufUnwritten _ => none
  | .txbufOutOfRange _ => none

/-- The code of a refusal (R121). -/
def Refusal.code : Refusal → Option Nat
  | .tinitRepeated => some 16
  | .sinitRepeated => some 17
  | .sendBeforeSinit => some 18
  | _ => none

end Sys2Proof.Machine
end

