-- ==== Sys2Proof/Machine/Tcu.lean ====
section
/-! DEFINITION. The TCU family (spec/40_tick_scheduler.md): the commands `TINIT`, `TADD`, `RDCLK`,
`CAPTURE` and the event `@TICK`. -/

namespace Sys2Proof.Machine

/-- `TINIT` (R80). -/
def execTinit (s : State) : StepOutcome :=
  atomic (fun s =>
    if s.trun then .refused .tinitRepeated
    else .next (((s.setTrun true).setTie true).setGie true)) s

/-- `TADD action, period` (R81). -/
def execTadd (action period : U16) (s : State) : StepOutcome :=
  atomic (fun s => .next (s.setTasks (register s.tasks (newTask action period)))) s

/-- `RDCLK` (R86). -/
def execRdclk (s : State) : StepOutcome :=
  atomic (fun s => .next (respond s (clockResponse s.clock))) s

/-- `CAPTURE` (R84). -/
def execCapture (s : State) : StepOutcome :=
  atomic (fun s =>
    .next (respond (s.setTasks (scanSlots captureSlot s.tasks)) (captureResponse (snapshot s.tasks)))) s

/-- `@TICK` (R83); the comparison uses the incremented clock. -/
def execTick (s : State) : StepOutcome :=
  atomic (fun s =>
    let now := inc16 s.clock
    .next ((s.setClock now).setTasks (scanSlots (tickSlot now) s.tasks))) s

end Sys2Proof.Machine
end

