-- ==== Sys2Proof/Machine/Txf.lean ====
section
/-! DEFINITION. The TXF family (spec/41_serial_tx.md): the commands `SINIT`, `SEND` and the event
`@DRAIN`. -/

namespace Sys2Proof.Machine

/-- `SINIT baud` (R100). -/
def execSinit (baud : U32) (s : State) : StepOutcome :=
  atomic (fun s =>
    if s.sen then .refused .sinitRepeated else .next ((s.setSen true).setBaud baud)) s

/-- `SEND n, text` (R101). -/
def execSend (text : List Byte) (s : State) : StepOutcome :=
  atomic (fun s =>
    if s.sen then
      match appendAll text s with
      | .ok t => .next (t.setDrie true)
      | .error f => .fault f
    else .refused .sendBeforeSinit) s

/-- `@DRAIN` (R103). -/
def execDrain (s : State) : StepOutcome :=
  atomic (fun s =>
    if ringEmpty s then .next (s.setDrie false)
    else
      match remove s with
      | .ok (b, t) => .next (txwrite t b)
      | .error f => .fault f) s

end Sys2Proof.Machine
end

