-- ==== Sys2Proof/Machine/Dispatch.lean ====
section
/-! DEFINITION. One arm per command: the command's meaning (spec/30_encoding.md R63). -/

namespace Sys2Proof.Machine

def exec (i : Instr) (s : State) : Host.Outcome State Fault Refusal :=
  match i with
  | .tinit => Sys2Proof.Machine.execTinit s
  | .tadd action period => Sys2Proof.Machine.execTadd action period s
  | .rdclk => Sys2Proof.Machine.execRdclk s
  | .capture => Sys2Proof.Machine.execCapture s
  | .sinit baud => Sys2Proof.Machine.execSinit baud s
  | .send text => Sys2Proof.Machine.execSend text s

end Sys2Proof.Machine
end

