-- ==== Sys2Proof/Machine/Turns.lean ====
section
/-! DEFINITION. The stimuli of the labelled transition system (spec/00_scope.md R2), when an event can
occur (spec/60_exceptions.md R123), what one turn of an agent does, and traces (R8). -/

namespace Sys2Proof.Machine

/-- A stimulus (R2): a decoded command, `@TICK` or `@DRAIN`. -/
inductive Stimulus where
  | cmd (i : Instr)
  | event (e : Event)
deriving DecidableEq, Repr

/-- The body of an event step (R125: the handler is built into the block). -/
def execEvent : Event → State → StepOutcome
  | .tick, s => execTick s
  | .drain, s => execDrain s

/-- `step : State x Stimulus -> Outcome` (R2). None: the event is not enabled here, so the stimulus cannot
come (R8, R123). -/
def stimulate : Stimulus → State → Option StepOutcome
  | .cmd i, s => some (exec i s)
  | .event e, s => if eventEnabled e s then some (execEvent e s) else none

/-- An event's turn: its step where it is enabled; otherwise no event occurs and nothing happens
(R123; log entry 5). -/
def eventTurn (e : Event) (s : State) : StepOutcome :=
  match stimulate (.event e) s with
  | some o => o
  | none => .next s

/-- The host's turn (R60): the command at the front of the stream is decoded, taken off the stream and
performed. An empty stream presents no command, and nothing happens (log entry 6). The decoder's
verdict comes first (R121). -/
def hostTurn (s : State) : StepOutcome :=
  match s.cmdIn with
  | [] => .next s
  | b0 :: bs =>
    match decode (b0 :: bs) with
    | .ok i rest => exec i (s.setCmdIn rest)
    | .illegal b => .fault (.illegalOpcode b)
    | .needMore => .fault (.truncatedCommand (b0 :: bs))

/-- One turn of the agent the environment names (R2). -/
def runTurn : Turn → State → StepOutcome
  | .host, s => hostTurn s
  | .tick, s => eventTurn .tick s
  | .txe, s => eventTurn .drain s

/-- Apply the stimuli of a trace in order (R8). None: an event stands where it is not enabled, and the
sequence is not a trace of the machine. -/
def runTrace : List Stimulus → State → Option StepOutcome
  | [], s => some (.next s)
  | x :: xs, s =>
    match stimulate x s with
    | none => none
    | some (.next t) => runTrace xs t
    | some (.fault f) => some (.fault f)
    | some (.refused r) => some (.refused r)

end Sys2Proof.Machine
end

