-- ==== Sys2Proof/Machine/Step.lean ====
section
/-! DEFINITION. One step of the machine: the turn of the agent that the environment's list names, the
host's when the list is empty (spec/00_scope.md R2; log entry 4). -/

namespace Sys2Proof.Machine

/-- One atomic step (R2): the next turn is taken off the list and run. -/
def step (s : State) : Host.Outcome State Fault Refusal :=
  match s.turns with
  | [] => hostTurn s
  | turn :: rest => runTurn turn (s.setTurns rest)

/-- The host is next, and the command of an opcode-table word stands at the front of its stream; the
host's later commands and the environment's later turns follow (log entry 11). -/
def State.withFetchWord (s : State) (nbits w : Nat) : State :=
  (s.setTurns (.host :: s.turns)).setCmdIn (tableCommand nbits w ++ s.cmdIn)

end Sys2Proof.Machine
end

