-- ==== Sys2Proof/Machine/Assembler.lean ====
section
/-! DEFINITION. Assembler and trace text (spec/30_encoding.md R68, spec/00_scope.md R8): one command or
event a line, `;` starts a comment, numbers decimal or `0x` hexadecimal that must fit the operand. How
the text is cut into words is log entry 19. -/

namespace Sys2Proof.Machine

/-- One item of a trace (R8, R68): a command, `@TICK*n`, or `@DRAIN*n`. R8 and R68 define a repetition for
`@TICK` only; that `@DRAIN*n` is read the same way, as the test vectors write it, is log entry 19. -/
inductive TraceItem where
  | command (i : Instr)
  | ticks (n : Nat)
  | drains (n : Nat)
deriving DecidableEq, Repr

/-- The stimuli an item stands for: `@TICK*n` is `n` consecutive `@TICK` (R8), and `@DRAIN*n` is `n`
consecutive `@DRAIN` (log entry 19). -/
def TraceItem.stimuli : TraceItem → List Stimulus
  | .command i => [.cmd i]
  | .ticks n => List.replicate n (.event .tick)
  | .drains n => List.replicate n (.event .drain)

/-- A word, a quoted text, or a comma of a line. -/
inductive AsmToken where
  | word (cs : List Char)
  | text (cs : List Char)
  | comma
deriving DecidableEq, Repr

/-- Where in a line the cutting stands: between words, in a word, in a quoted text. -/
inductive AsmMode where
  | between
  | inWord (rev : List Char)
  | inText (rev : List Char)
deriving DecidableEq, Repr

/-- Cut a line into tokens; none for a quote inside a word or a text that does not end. -/
def asmTokens : AsmMode → List Char → Option (List AsmToken)
  | .between, [] => some []
  | .inWord rev, [] => some [.word rev.reverse]
  | .inText _, [] => none
  | .between, c :: cs =>
    if c = ';' then some []
    else if c = ' ' ∨ c = '\t' then asmTokens .between cs
    else if c = ',' then (asmTokens .between cs).map (.comma :: ·)
    else if c = '"' then asmTokens (.inText []) cs
    else asmTokens (.inWord [c]) cs
  | .inWord rev, c :: cs =>
    if c = ';' then some [.word rev.reverse]
    else if c = ' ' ∨ c = '\t' then (asmTokens .between cs).map (.word rev.reverse :: ·)
    else if c = ',' then (asmTokens .between cs).map fun ts => .word rev.reverse :: .comma :: ts
    else if c = '"' then none
    else asmTokens (.inWord (c :: rev)) cs
  | .inText rev, c :: cs =>
    if c = '"' then (asmTokens .between cs).map (.text rev.reverse :: ·)
    else asmTokens (.inText (c :: rev)) cs

/-- The value of a digit in a base up to 16. -/
def asmDigit (base : Nat) (c : Char) : Option Nat :=
  let d :=
    if '0'.toNat ≤ c.toNat ∧ c.toNat ≤ '9'.toNat then c.toNat - '0'.toNat
    else if 'a'.toNat ≤ c.toNat ∧ c.toNat ≤ 'f'.toNat then c.toNat - 'a'.toNat + 10
    else if 'A'.toNat ≤ c.toNat ∧ c.toNat ≤ 'F'.toNat then c.toNat - 'A'.toNat + 10
    else base
  if d < base then some d else none

/-- The value of a digit string with the value read so far. -/
def asmDigits (base : Nat) : Nat → List Char → Option Nat
  | n, [] => some n
  | n, c :: cs =>
    match asmDigit base c with
    | some d => asmDigits base (base * n + d) cs
    | none => none

/-- A number: decimal, or hexadecimal after `0x` (R68). -/
def asmNumber : List Char → Option Nat
  | [] => none
  | ['0', 'x'] => none
  | '0' :: 'x' :: cs => asmDigits 16 0 cs
  | cs => asmDigits 10 0 cs

/-- A number that fits `w` bits (R68: it must fit the operand's width). -/
def asmOperand (w : Nat) (cs : List Char) : Option (BitVec w) :=
  match asmNumber cs with
  | some n => if n < 2 ^ w then some (BitVec.ofNat w n) else none
  | none => none

/-- The ASCII bytes of a text (R68). -/
def asmText (cs : List Char) : Option (List Byte) :=
  cs.mapM fun c => if c.toNat < 128 then some (BitVec.ofNat 8 c.toNat) else none

/-- The bytes of explicit byte values (R68). -/
def asmByteWord : AsmToken → Option Byte
  | .word cs => asmOperand 8 cs
  | .text _ => none
  | .comma => none

/-- The payload of a `SEND` (R68): a quoted text, or byte values. -/
def asmPayload : List AsmToken → Option (List Byte)
  | [.text cs] => asmText cs
  | ts => ts.mapM asmByteWord

/-- The item a mnemonic and its operand tokens stand for (R68; `@DRAIN*n` is log entry 19). -/
def asmItem (m : List Char) (args : List AsmToken) : Option TraceItem :=
  if m = "SEND".toList then
    (asmPayload args).bind fun bs =>
      if bs.length ≤ sendMax then some (TraceItem.command (.send bs)) else none
  else
    match args with
    | [] =>
      if m = "TINIT".toList then some (.command .tinit)
      else if m = "RDCLK".toList then some (.command .rdclk)
      else if m = "CAPTURE".toList then some (.command .capture)
      else if m = "@DRAIN".toList then some (.drains 1)
      else if m.take 7 = "@DRAIN*".toList then (asmNumber (m.drop 7)).map TraceItem.drains
      else if m = "@TICK".toList then some (.ticks 1)
      else if m.take 6 = "@TICK*".toList then (asmNumber (m.drop 6)).map TraceItem.ticks
      else none
    | [.word a] =>
      if m = "SINIT".toList then (asmOperand 32 a).map fun v => TraceItem.command (Instr.sinit v) else none
    | [.word a, .comma, .word p] =>
      if m = "TADD".toList then
        (asmOperand 16 a).bind fun va => (asmOperand 16 p).map fun vp => TraceItem.command (.tadd va vp)
      else none
    | _ => none

/-- One line: no item for a blank line or a comment, one item otherwise; none where the line is not of
the syntax of R68. -/
def asmLine (cs : List Char) : Option (List TraceItem) :=
  match asmTokens .between cs with
  | some [] => some []
  | some (.word m :: args) => (asmItem m args).map fun x => [x]
  | _ => none

/-- The items of a text given line by line. -/
def asmLines (lines : List (List Char)) : Option (List TraceItem) := (lines.mapM asmLine).map List.flatten

/-- The bytes of a command item; an event is never assembled (R68). -/
def asmBytes : TraceItem → Option (List Byte)
  | .command i => some (encode i)
  | .ticks _ => none
  | .drains _ => none

/-- The command stream a text assembles to (R68); none if an event stands in it. -/
def assemble (lines : List (List Char)) : Option (List Byte) :=
  (asmLines lines).bind fun items =>
    (items.mapM asmBytes).map List.flatten

/-- The stimuli of a trace text (R8). -/
def traceText (lines : List (List Char)) : Option (List Stimulus) :=
  (asmLines lines).map fun items => items.flatMap TraceItem.stimuli

end Sys2Proof.Machine
end

