-- ==== Sys2Proof/Machine/Signals.lean ====
section
/-! DEFINITION. What the block shows at its boundary (spec/60_exceptions.md R129, spec/10_state.md R21):
the output levels, and the bytes a step appends to the two output traces (spec/00_scope.md R2). The
inputs `tick` and `txe` are the turns of `State.turns`; the command port is `State.cmdIn`. -/

namespace Sys2Proof.Machine

/-- The output levels of the block (R129). -/
structure OutputLevels where
  /-- `trun`: tells the timer to run at `TICK_HZ`. -/
  trun : Bool
  /-- `sen`: tells the UART to enable its receiver and transmitter, framing 8-N-1 (R17). -/
  sen : Bool
  /-- `baud`: the requested rate. -/
  baud : U32
deriving DecidableEq, Repr

/-- The output levels in a state: the values of `TRUN`, `SEN` and `BAUD` (R129). -/
def outputLevels (s : State) : OutputLevels where
  trun := s.trun
  sen := s.sen
  baud := s.baud

/-- The bytes a step from `s` to `t` appended to `RESP` (R2, R66). -/
def responseOf (s t : State) : List Byte := t.resp.drop s.resp.length

/-- The bytes a step from `s` to `t` wrote to the transmitter: one `txdata` with its strobe `txwr` for each
(R2, R129). -/
def transmittedBy (s t : State) : List Byte := t.txout.drop s.txout.length

end Sys2Proof.Machine
end

