-- ==== Sys2Proof/Machine/Pseudo.lean ====
section
/-! DEFINITION. The host-side pseudo-instructions (spec/30_encoding.md R69): `SCHEDRUN`
(spec/40_tick_scheduler.md R85) and `DELAY ms` (R87). They are sequences of commands and no steps of the
block; what the environment does between the host's commands is an argument (log entry 17). -/

namespace Sys2Proof.Machine

/-- Event turns taken in order (R123). -/
def runEvents : List Event → State → StepOutcome
  | [], s => .next s
  | e :: es, s =>
    match eventTurn e s with
    | .next t => runEvents es t
    | .fault f => .fault f
    | .refused r => .refused r

/-- `RDCLK` as the host sees it: the value read (R69) and the state after. -/
def pollClock (s : State) : Option (U16 × State) :=
  match exec .rdclk s with
  | .next t => (clockOfResponse (responseOf s t)).map fun v => (v, t)
  | .fault _ => none
  | .refused _ => none

/-- The loop test of `DELAY`: `ltu(sub16(cur, start), ms)` (R87). -/
def delayWaits (ms start cur : U16) : Bool := ltu (sub16 cur start) ms

/-- How far a `DELAY` has come when the listed gaps between its polls are used up. -/
inductive DelayResult where
  /-- The loop fell through, in this state. -/
  | returned (s : State)
  /-- The host is still looping, in this state. -/
  | waiting (s : State)
  /-- A step stopped. -/
  | stopped
deriving DecidableEq, Repr

/-- The loop of `DELAY` (R87): before each further `RDCLK` the events of one gap occur. -/
def delayLoop (ms start : U16) : List (List Event) → State → DelayResult
  | [], s => .waiting s
  | gap :: gaps, s =>
    match runEvents gap s with
    | .next t =>
      match pollClock t with
      | some (cur, u) => if delayWaits ms start cur then delayLoop ms start gaps u else .returned u
      | none => .stopped
    | .fault _ => .stopped
    | .refused _ => .stopped

/-- `DELAY ms` (R87): `start` is the first `RDCLK`, then the loop. -/
def delay (ms : U16) (gaps : List (List Event)) (s : State) : DelayResult :=
  match pollClock s with
  | some (start, t) => delayLoop ms start gaps t
  | none => .stopped

/-- `SCHEDRUN`, first phase (R85): the snapshot list in the response of `CAPTURE`, and the state after. -/
def schedrun (s : State) : Option (List U16 × State) :=
  match exec .capture s with
  | .next t => (tokensOfResponse (responseOf s t)).map fun snap => (snap, t)
  | .fault _ => none
  | .refused _ => none

/-- `SCHEDRUN`, second phase (R85): the commands the host issues when it invokes the captured actions in
order, each to completion. What a body issues is left to the host (R4 item 5, R27); the model's choice
(log entry 17) is the argument: `issued k a` are the commands that the invocation of the `k`-th captured
action, of token `a`, issues in the run at hand, a finite list. It may depend on `k`, so two slots of one
token may issue differently, and being that of one run it may depend on the responses seen in that run
and on earlier invocations. -/
def executionPhase (issued : Nat → U16 → List Instr) (snap : List U16) : List Instr :=
  (snap.mapIdx issued).flatten

/-- `serial_send(text)` of the source as a command (R65, R69): a `SEND` of the first 255 bytes. -/
def serialSend (text : List Byte) : Instr := .send (text.take sendMax)

end Sys2Proof.Machine
end

