-- ==== Sys2Proof/Safety.lean ====
section
/-! DEFINITION. What counts as a well-formed state and a safe run, in the terms the statements use: the
invariants the spec says hold at every step boundary (spec/10_state.md R14, R15, R18, R19, R28,
spec/60_exceptions.md R123, spec/20_memory.md R50), the bytes held in the ring (R19), and the bytes a
stimulus gets accepted (spec/41_serial_tx.md R101, R104). -/

namespace Sys2Proof.Machine

/-- `n` consecutive cells of the ring from index `i`, each as it reads (none: never written). -/
def cellsFrom (cap : Nat) (m : Memory) : Nat → Nat → List (Option Byte)
  | _, 0 => []
  | i, n + 1 => m.read i :: cellsFrom cap m (nexti cap i) n

/-- The cells held in the ring, oldest first: `TXBUF[TAIL], TXBUF[nexti(TAIL)], ...` (R19). -/
def heldCells (s : State) : List (Option Byte) :=
  cellsFrom s.cfg.txcap s.txbuf s.tail (ringCount s.cfg.txcap s.head s.tail)

/-- The invariants of the block, true at every step boundary. -/
structure State.Inv (s : State) : Prop where
  /-- The parameters are in range (R5). -/
  cfg_wf : s.cfg.wf
  /-- `0 <= HEAD < TXCAP` (R18). -/
  head_lt : s.head < s.cfg.txcap
  /-- `0 <= TAIL < TXCAP` (R18). -/
  tail_lt : s.tail < s.cfg.txcap
  /-- The byte array is in canonical form. -/
  mem_wf : s.txbuf.wf
  /-- Every written cell has an index below `TXCAP` (R18). -/
  mem_lt : ∀ c ∈ s.txbuf, c.1 < s.cfg.txcap
  /-- Every cell held in the ring has been written (R50). -/
  held_written : none ∉ heldCells s
  /-- `HEAD != TAIL` implies `DRIE = 1` and `SEN = 1` (R28). -/
  armed : s.head ≠ s.tail → s.drie = true ∧ s.sen = true
  /-- `PERIOD = 0` implies `READY = 1` (R14 a), and its `NEXT_RUN` is 0 (R13). -/
  background : ∀ (i : Fin 10) (t : Task), s.tasks[i] = some t → t.period = 0 → t.ready = true ∧ t.nextRun = 0
  /-- The occupied slots are exactly `T[0] .. T[n-1]` for some `n` (R15). -/
  occupied : ∀ i j : Fin 10, i < j → s.tasks[i] = none → s.tasks[j] = none
  /-- `TIE` and `GIE` equal `TRUN` (R123). -/
  timer_bits : s.tie = s.trun ∧ s.gie = s.trun
  /-- Before `TINIT` no tick has occurred (R80, R86). -/
  clock_stopped : s.trun = false → s.clock = 0

/-- It is the host's turn: the environment names the host next, or names nobody (log entry 4). -/
def State.hostIsNext (s : State) : Prop := s.turns = [] ∨ s.turns.head? = some .host

/-- The bytes a stimulus gets appended to the ring: the first `free(HEAD, TAIL)` bytes of a `SEND`'s text
(R101, R106), none otherwise. -/
def acceptedBy : Stimulus → State → List Byte
  | .cmd (.send text), s => text.take (ringFree s.cfg.txcap s.head s.tail)
  | _, _ => []

/-- The bytes accepted along a trace, in order: the sequence `A` of R104. -/
def acceptedOver : List Stimulus → State → List Byte
  | [], _ => []
  | x :: xs, s =>
    match stimulate x s with
    | some (.next t) => acceptedBy x s ++ acceptedOver xs t
    | _ => []

/-- `n` consecutive `@TICK` (R8). -/
def ticksTrace (n : Nat) : List Stimulus := List.replicate n (.event .tick)

/-- `n` consecutive `@DRAIN` (R8). -/
def drainsTrace (n : Nat) : List Stimulus := List.replicate n (.event .drain)

/-- How many of the instants `d`, `d + p`, `d + 2p`, ... are at most `n`: the firings of a task of period `p`
within `n` ticks, the first of them `d` ticks ahead (R89). -/
def firings (d p n : Nat) : Nat := if n < d then 0 else (n - d) / p + 1

/-- How many `@TICK` a trace holds. -/
def ticksIn (xs : List Stimulus) : Nat := xs.count (.event .tick)

/-- The transmit side is quiescent (R104, D30): `HEAD = TAIL` and `DRIE = 0`. -/
def State.quiescent (s : State) : Prop := s.head = s.tail ∧ s.drie = false

/-- The stop is the decoder's verdict on the command stream (R121). -/
def Fault.fromDecoder : Fault → Bool
  | .illegalOpcode _ => true
  | .truncatedCommand _ => true
  | .txbufUnwritten _ => false
  | .txbufOutOfRange _ => false

end Sys2Proof.Machine
end

