-- ==== Sys2Proof/Certificates/Slice0/Obligations.lean ====
section
/-! DEFINITION. The statements for the provers, each formalising a rule of spec/ or resting on the sections
its entry of OBLIGATIONS.json cites. A result statement gives the whole next state, so it is the command's
frame as well: every field it does not name is that of the state before. -/

open Sys2Proof Sys2Proof.Machine

/-! ### Encoding (spec/30_encoding.md) -/

/-- R70: decoding then encoding and encoding then decoding are the identity on well-formed commands, with
any bytes after the command. -/
def Obligations.DecodeAndEncodeAreInverse : Prop :=
  ∀ (bs rest : List Byte) (i : Instr),
    decode bs = .ok i rest ↔ i.wellFormed = true ∧ bs = encode i ++ rest

/-- R70: the decoder wants more bytes exactly on the proper prefixes of commands, the empty sequence among
them. -/
def Obligations.NeedMoreExactlyOnProperPrefixes : Prop :=
  ∀ bs : List Byte,
    decode bs = .needMore ↔ ∃ (i : Instr) (more : List Byte),
      i.wellFormed = true ∧ more ≠ [] ∧ encode i = bs ++ more

/-- R64: a step ends in `ILLEGAL_OPCODE`, with the byte recorded, exactly when it is the host's turn and the
stream stands at a byte that is none of the six opcodes. -/
def Obligations.IllegalOpcodeExactlyOutsideTheSix : Prop :=
  ∀ (s : State) (b : Byte),
    step s = .fault (.illegalOpcode b) ↔
      s.hostIsNext ∧ s.cmdIn.head? = some b ∧ b ∉ ([0x01, 0x02, 0x03, 0x04, 0x10, 0x11] : List Byte)

/-- R70: a stream that ends inside a command, at least one byte into it, ends the step in
`TRUNCATED_COMMAND` with the bytes recorded. That `State.cmdIn` is the whole rest of the stream is the
model's choice (log entry 3). -/
def Obligations.TruncatedCommandFaults : Prop :=
  ∀ (s : State) (i : Instr) (more : List Byte), s.hostIsNext → s.cmdIn ≠ [] →
    i.wellFormed = true → more ≠ [] → encode i = s.cmdIn ++ more →
    step s = .fault (.truncatedCommand s.cmdIn)

/-- R61, R63: the length of every command and its fields as bits of the integer `C`. -/
def Obligations.CommandFieldsAreBitSlices : Prop :=
  (encode .tinit).length = 1 ∧ commandInteger (encode .tinit) = 0x01 ∧
  (encode .rdclk).length = 1 ∧ commandInteger (encode .rdclk) = 0x03 ∧
  (encode .capture).length = 1 ∧ commandInteger (encode .capture) = 0x04 ∧
  (∀ action period : U16,
    let C := commandInteger (encode (.tadd action period))
    (encode (.tadd action period)).length = 5 ∧ C % 2 ^ 8 = 0x02 ∧
      C / 2 ^ 8 % 2 ^ 16 = action.toNat ∧ C / 2 ^ 24 % 2 ^ 16 = period.toNat) ∧
  (∀ baud : U32,
    let C := commandInteger (encode (.sinit baud))
    (encode (.sinit baud)).length = 5 ∧ C % 2 ^ 8 = 0x10 ∧ C / 2 ^ 8 % 2 ^ 32 = baud.toNat) ∧
  (∀ text : List Byte, text.length ≤ 255 →
    let C := commandInteger (encode (.send text))
    (encode (.send text)).length = 2 + text.length ∧ C % 2 ^ 8 = 0x11 ∧
      C / 2 ^ 8 % 2 ^ 8 = text.length ∧
      ∀ (k : Nat) (hk : k < text.length), C / 2 ^ (8 * k + 16) % 2 ^ 8 = text[k].toNat)

/-- R68: the spec's example encodings decode to the commands they stand for. -/
def Obligations.ExampleEncodingsDecode : Prop :=
  decode [0x01] = .ok .tinit [] ∧
  decode [0x02, 0xA1, 0x00, 0x64, 0x00] = .ok (.tadd 0x00A1 100) [] ∧
  decode [0x03] = .ok .rdclk [] ∧
  decode [0x04] = .ok .capture [] ∧
  decode [0x10, 0x80, 0x25, 0x00, 0x00] = .ok (.sinit 9600) [] ∧
  decode [0x11, 0x02, 0x48, 0x69] = .ok (.send [0x48, 0x69]) [] ∧
  decode [0x11, 0x00] = .ok (.send []) [] ∧
  decodeTableWord 40 0x006400A102 = some (.tadd 0x00A1 0x0064)

/-! ### One step (spec/00_scope.md R2, spec/30_encoding.md R60, spec/60_exceptions.md R123) -/

/-- R60: on the host's turn, the command at the front of the stream is taken off the stream and performed.
The list of turns is the model's rendering of the environment's choice (log entry 4). -/
def Obligations.StepRunsTheDecodedCommand : Prop :=
  ∀ (s : State) (i : Instr) (rest : List Byte), s.hostIsNext → decode s.cmdIn = .ok i rest →
    step s = exec i { s with cmdIn := rest, turns := s.turns.tail }

/-- R123: a tick pulse is a `@TICK` step exactly where `TRUN & TIE & GIE = 1`, a `txe` turn a `@DRAIN` step
exactly where `GIE & DRIE = 1`; elsewhere no event occurs (that the turn then passes is the model's
choice, log entry 5). -/
def Obligations.StepTakesExactlyEnabledEvents : Prop :=
  (∀ (s : State) (later : List Turn), s.turns = .tick :: later →
    step s = if s.trun = true ∧ s.tie = true ∧ s.gie = true then execEvent .tick { s with turns := later }
      else .next { s with turns := later }) ∧
  (∀ (s : State) (later : List Turn), s.turns = .txe :: later →
    step s = if s.gie = true ∧ s.drie = true then execEvent .drain { s with turns := later }
      else .next { s with turns := later })

/-- The model's choice (log entry 6), after vector V-DEC-18: where the host presents no command, its turn
passes and nothing else changes. -/
def Obligations.EmptyStreamLeavesTheBlockIdle : Prop :=
  ∀ s : State, s.hostIsNext → s.cmdIn = [] → step s = .next { s with turns := s.turns.tail }

/-- Log entry 11: the command of an opcode-table word, placed by `withFetchWord`, is what the very next
step performs, in the state it was placed in. -/
def Obligations.PlacedTableWordRunsNext : Prop :=
  ∀ (s : State) (nbits w : Nat) (i : Instr), decodeTableWord nbits w = some i →
    step (s.withFetchWord nbits w) = exec i s

/-! ### The TCU commands and `@TICK` (spec/40_tick_scheduler.md) -/

/-- R80: `TINIT` sets the three timer bits and nothing else, and from then on `@TICK` is enabled and
`@DRAIN` whenever `DRIE = 1`; a second `TINIT` is refused. -/
def Obligations.TinitSetsTheTimerBits : Prop :=
  ∀ s : State,
    (s.trun = false → ∃ t, exec .tinit s = .next t ∧
      t = { s with trun := true, tie := true, gie := true } ∧
      eventEnabled .tick t = true ∧ eventEnabled .drain t = s.drie) ∧
    (s.trun = true → exec .tinit s = .refused .tinitRepeated)

/-- R81: `TADD` fills the first empty slot, with `NEXT_RUN = period` and `READY = (period = 0)`, and nothing
else; when all ten slots are occupied nothing happens. -/
def Obligations.TaddFillsTheFirstEmptySlot : Prop :=
  ∀ (s : State) (action period : U16),
    let τ : Task := { action := action, period := period, nextRun := period, ready := decide (period = 0) }
    (∀ i : Fin 10, s.tasks[i] = none → (∀ j : Fin 10, j < i → s.tasks[j] ≠ none) →
      exec (.tadd action period) s = .next { s with tasks := s.tasks.set i (some τ) }) ∧
    ((∀ i : Fin 10, s.tasks[i] ≠ none) → exec (.tadd action period) s = .next s)

/-- R86: `RDCLK` answers `CLOCK[7:0]`, then `CLOCK[15:8]`, and changes nothing else. -/
def Obligations.RdclkAnswersTheClock : Prop :=
  ∀ s : State, exec .rdclk s = .next { s with resp := s.resp ++
    [BitVec.ofNat 8 (s.clock.toNat % 256), BitVec.ofNat 8 (s.clock.toNat / 256)] }

/-- R84: `CAPTURE` answers the number of ready tasks and their tokens in table order, low byte first; it
clears `READY` of the ready periodic slots and changes nothing else. -/
def Obligations.CaptureAnswersAndClearsReadyTasks : Prop :=
  ∀ s : State,
    let snap := s.tasks.toList.filterMap fun slot =>
      slot.bind fun τ => if τ.ready = true then some τ.action else none
    ∃ t, exec .capture s = .next t ∧
      t = { s with tasks := t.tasks, resp := t.resp } ∧
      snap.length ≤ 10 ∧
      t.resp = s.resp ++ BitVec.ofNat 8 snap.length ::
        snap.flatMap (fun a => [BitVec.ofNat 8 (a.toNat % 256), BitVec.ofNat 8 (a.toNat / 256)]) ∧
      ∀ i : Fin 10, t.tasks[i] =
        (s.tasks[i]).map fun τ => { τ with ready := τ.ready && decide (τ.period = 0) }

/-- R84, corner case (a): a second `CAPTURE` with no `@TICK` between returns only background tasks, and
changes no slot. -/
def Obligations.SecondCaptureReturnsOnlyBackgroundTasks : Prop :=
  ∀ s t : State, exec .capture s = .next t →
    ∃ u, exec .capture t = .next u ∧ u.tasks = t.tasks ∧
      tokensOfResponse (responseOf t u) = some (s.tasks.toList.filterMap fun slot =>
        slot.bind fun τ => if τ.ready = true ∧ τ.period = 0 then some τ.action else none)

/-- R82: the comparator says due exactly when the modular difference lies in `0 .. 0x7FFF`. -/
def Obligations.DueComparatorIsHalfRange : Prop :=
  ∀ now nextRun : U16,
    reached now nextRun = true ↔ (now.toNat + 65536 - nextRun.toNat) % 65536 ≤ 0x7FFF

/-- R83: `@TICK` is enabled by `TRUN & TIE & GIE`; it adds one to the clock modulo 2^16, and each due periodic
slot becomes ready with `NEXT_RUN = now + PERIOD`; every other slot and every other field is unchanged. -/
def Obligations.TickAdvancesClockAndMarksDueTasks : Prop :=
  ∀ s : State, eventEnabled .tick s = (s.trun && s.tie && s.gie) ∧ ∃ t, execEvent .tick s = .next t ∧
    t = { s with clock := t.clock, tasks := t.tasks } ∧
    t.clock.toNat = (s.clock.toNat + 1) % 65536 ∧
    ∀ i : Fin 10, t.tasks[i] = (s.tasks[i]).map fun τ =>
      if τ.period ≠ 0 ∧ (t.clock.toNat + 65536 - τ.nextRun.toNat) % 65536 < 0x8000 then
        { τ with ready := true, nextRun := BitVec.ofNat 16 (t.clock.toNat + τ.period.toNat) }
      else τ

/-- R92: no step changes any field of a background slot, and every `CAPTURE` returns its action. -/
def Obligations.BackgroundTaskIsFixedAndAlwaysCaptured : Prop :=
  ∀ (s : State) (i : Fin 10) (τ : Task), s.Inv → s.tasks[i] = some τ → τ.period = 0 →
    τ.ready = true ∧
    (∀ t, step s = .next t → t.tasks[i] = some τ) ∧
    ∃ t snap, exec .capture s = .next t ∧ tokensOfResponse (responseOf s t) = some snap ∧ τ.action ∈ snap

/-- R91, with R13 and R14: what each stimulus does to the fields of an occupied periodic slot. Only a
`@TICK` that finds the slot due sets `READY` and advances `NEXT_RUN`; only a `CAPTURE` clears `READY`. -/
def Obligations.OnlyTickSetsAndOnlyCaptureClearsReady : Prop :=
  ∀ (x : Stimulus) (s t : State) (i : Fin 10) (τ : Task),
    stimulate x s = some (.next t) → s.tasks[i] = some τ → τ.period ≠ 0 →
    t.tasks[i] = some (
      if x = .event .tick then
        if reached (s.clock + 1) τ.nextRun = true then
          { τ with ready := true, nextRun := s.clock + 1 + τ.period }
        else τ
      else if x = .cmd .capture then { τ with ready := false }
      else τ)

/-- R88: after a firing at tick `c` a task of period `1 .. 0x8001` is not due before tick `c + PERIOD` and
due there; one of a greater period is due on the very next tick. -/
def Obligations.PeriodBoundOfTheComparator : Prop :=
  ∀ c p : U16,
    (1 ≤ p.toNat → p.toNat ≤ 0x8001 →
      (∀ k : Nat, 1 ≤ k → k < p.toNat → reached (c + BitVec.ofNat 16 k) (c + p) = false) ∧
      reached (c + p) (c + p) = true) ∧
    (0x8002 ≤ p.toNat → reached (c + 1) (c + p) = true)

/-- R89, the run without a dispatch: a task whose `NEXT_RUN` lies `d` ticks ahead (`1 <= d <= 0x8001`) fires at
the ticks `d`, `d + p`, `d + 2p`, ... from here, and `READY` stays 1 from the first on. -/
def Obligations.UndispatchedTaskStaysOnItsGrid : Prop :=
  ∀ (s : State) (i : Fin 10) (τ : Task) (n : Nat),
    eventEnabled .tick s = true → s.tasks[i] = some τ → 1 ≤ τ.period.toNat → τ.period.toNat ≤ 0x8001 →
    let d := (τ.nextRun - s.clock).toNat
    1 ≤ d → d ≤ 0x8001 →
    ∃ t, runTrace (ticksTrace n) s = some (.next t) ∧
      t.clock = s.clock + BitVec.ofNat 16 n ∧
      t.tasks[i] = some { τ with
        ready := τ.ready || decide (d ≤ n)
        nextRun := if n < d then τ.nextRun
          else τ.nextRun + BitVec.ofNat 16 (((n - d) / τ.period.toNat + 1) * τ.period.toNat) }

/-- R89, whatever the host and the transmitter do between the ticks, `CAPTURE` among it: along every trace
`NEXT_RUN` advances by the period at the ticks `d`, `d + p`, `d + 2p`, ... and at no other, and after a
`CAPTURE` followed by `n` ticks `READY` is 1 exactly when one of these instants lies among the `n`. -/
def Obligations.FiringGridIsIndependentOfDispatch : Prop :=
  ∀ (s t : State) (i : Fin 10) (τ : Task) (xs : List Stimulus),
    eventEnabled .tick s = true → s.tasks[i] = some τ → 1 ≤ τ.period.toNat → τ.period.toNat ≤ 0x8001 →
    let d := (τ.nextRun - s.clock).toNat
    let advance (k : Nat) : U16 := BitVec.ofNat 16 (firings d τ.period.toNat k * τ.period.toNat)
    1 ≤ d → d ≤ 0x8001 → runTrace xs s = some (.next t) →
    t.clock = s.clock + BitVec.ofNat 16 (ticksIn xs) ∧
    (∃ ready, t.tasks[i] = some { τ with ready := ready, nextRun := τ.nextRun + advance (ticksIn xs) }) ∧
    ∀ n : Nat, ∃ u, runTrace (.cmd .capture :: ticksTrace n) t = some (.next u) ∧
      u.tasks[i] = some { τ with
        ready := decide (firings d τ.period.toNat (ticksIn xs) < firings d τ.period.toNat (ticksIn xs + n))
        nextRun := τ.nextRun + advance (ticksIn xs + n) }

/-- R90: a task registered with period `p` (`1 <= p <= 0x8001`) when `CLOCK = c` first becomes ready at the
very next tick if `reached(c + 1, p)`, otherwise `sub16(p, c)` ticks after its registration. The
registration may come before `TINIT` (the normal boot order) or after it, and further ones may follow it. -/
def Obligations.FirstFiringAfterRegistration : Prop :=
  ∀ (s : State) (i : Fin 10) (action p : U16) (n : Nat) (later : List (U16 × U16)),
    eventEnabled .tick s = true ∨ s.trun = false →
    s.tasks[i] = none → (∀ j : Fin 10, j < i → s.tasks[j] ≠ none) → 1 ≤ p.toNat → p.toNat ≤ 0x8001 →
    let first := if reached (s.clock + 1) p = true then 1 else (p - s.clock).toNat
    let registrations := ((action, p) :: later).map fun x => Stimulus.cmd (.tadd x.1 x.2)
    let start := if s.trun = true then [] else [Stimulus.cmd .tinit]
    ∃ t τ, runTrace (registrations ++ start ++ ticksTrace n) s = some (.next t) ∧
      t.clock = s.clock + BitVec.ofNat 16 n ∧ t.tasks[i] = some τ ∧ τ.ready = decide (first ≤ n)

/-- R11: a step changes `CLOCK` exactly when it takes an enabled tick, and then adds one. -/
def Obligations.OnlyTheTickWritesTheClock : Prop :=
  ∀ s t : State, step s = .next t →
    t.clock = if s.turns.head? = some .tick ∧ eventEnabled .tick s = true then s.clock + 1 else s.clock

/-- R12, R13, R15: no step empties a slot or changes the action or the period of an occupied one, and a step
that fills a slot performs a `TADD` with that action and period. -/
def Obligations.TaskTableOnlyGrows : Prop :=
  ∀ (s t : State) (i : Fin 10), step s = .next t →
    (∀ τ, s.tasks[i] = some τ →
      ∃ τ', t.tasks[i] = some τ' ∧ τ'.action = τ.action ∧ τ'.period = τ.period) ∧
    (∀ τ', s.tasks[i] = none → t.tasks[i] = some τ' →
      s.hostIsNext ∧ ∃ rest, decode s.cmdIn = .ok (.tadd τ'.action τ'.period) rest)

/-! ### The TXF commands and `@DRAIN` (spec/41_serial_tx.md) -/

/-- R100: `SINIT` sets `SEN`, records `BAUD`, and nothing else; a second `SINIT` is refused. -/
def Obligations.SinitRecordsTheBaudRate : Prop :=
  ∀ (s : State) (baud : U32),
    (s.sen = false → exec (.sinit baud) s = .next { s with sen := true, baud := baud }) ∧
    (s.sen = true → exec (.sinit baud) s = .refused .sinitRepeated)

/-- R101: `SEND` stores the first `m = min(n, free)` bytes at `(HEAD + k) mod TXCAP`, moves `HEAD` past them
and sets `DRIE`; every other cell and every other field is unchanged. Before `SINIT` it is refused. -/
def Obligations.SendStoresWhatFits : Prop :=
  ∀ (s : State) (text : List Byte),
    (s.sen = false → exec (.send text) s = .refused .sendBeforeSinit) ∧
    (s.sen = true → s.head < s.cfg.txcap → s.tail < s.cfg.txcap →
      let m := min text.length (ringFree s.cfg.txcap s.head s.tail)
      ∃ t, exec (.send text) s = .next t ∧
        t = { s with txbuf := t.txbuf, head := (s.head + m) % s.cfg.txcap, drie := true } ∧
        (∀ k < m, t.txbuf.read ((s.head + k) % s.cfg.txcap) = text[k]?) ∧
        (∀ a, (∀ k < m, a ≠ (s.head + k) % s.cfg.txcap) → t.txbuf.read a = s.txbuf.read a))

/-- R103: `@DRAIN` is enabled by `GIE & DRIE`; it moves the byte at `TAIL` to the transmitter, or clears
`DRIE` when the buffer is empty, and changes nothing else. -/
def Obligations.DrainMovesOneByteOrDisarms : Prop :=
  ∀ s : State,
    eventEnabled .drain s = (s.gie && s.drie) ∧
    (s.head = s.tail → execEvent .drain s = .next { s with drie := false }) ∧
    (∀ b : Byte, s.head ≠ s.tail → s.tail < s.cfg.txcap → s.txbuf.read s.tail = some b →
      execEvent .drain s =
        .next { s with txout := s.txout ++ [b], tail := (s.tail + 1) % s.cfg.txcap })

/-- R104: along every trace the bytes transmitted, followed by the bytes held, are those of the start
followed by the bytes accepted, in order: first in, first out, no byte lost, none invented. -/
def Obligations.TransmitIsFirstInFirstOut : Prop :=
  ∀ (xs : List Stimulus) (s t : State), s.Inv → runTrace xs s = some (.next t) →
    t.txout.map some ++ heldCells t =
      s.txout.map some ++ heldCells s ++ (acceptedOver xs s).map some

/-- R104: with `GIE = DRIE = 1`, exactly as many drain events as bytes held transmit them all, one more
clears `DRIE`, and then no drain is enabled. -/
def Obligations.DrainsEmptyTheRingAndDisarm : Prop :=
  ∀ s : State, s.Inv → s.gie = true → s.drie = true →
    let c := ringCount s.cfg.txcap s.head s.tail
    ∃ bytes : List Byte, heldCells s = bytes.map some ∧ bytes.length = c ∧
      runTrace (drainsTrace c) s =
        some (.next { s with txout := s.txout ++ bytes, tail := s.head }) ∧
      runTrace (drainsTrace (c + 1)) s =
        some (.next { s with txout := s.txout ++ bytes, tail := s.head, drie := false }) ∧
      runTrace (drainsTrace (c + 2)) s = none

/-- R105: a text of at most `TXCAP - 1` bytes sent into an empty buffer is transmitted whole and in order by
as many drain events as it has bytes. -/
def Obligations.SendThenDrainRoundTrip : Prop :=
  ∀ (s : State) (text : List Byte), s.Inv → s.sen = true → s.gie = true → s.head = s.tail →
    text.length ≤ s.cfg.txcap - 1 →
    ∃ t, runTrace (.cmd (.send text) :: drainsTrace text.length) s = some (.next t) ∧
      t.txout = s.txout ++ text ∧ t.head = t.tail

/-- R106: of a text longer than the free space exactly the first `free` bytes join the bytes held; no
response tells it. -/
def Obligations.OverflowKeepsTheFirstFreeBytes : Prop :=
  ∀ (s : State) (text : List Byte), s.Inv → s.sen = true →
    let f := ringFree s.cfg.txcap s.head s.tail
    f < text.length →
    ∃ t, exec (.send text) s = .next t ∧ heldCells t = heldCells s ++ (text.take f).map some ∧
      nexti t.cfg.txcap t.head = t.tail ∧ t.resp = s.resp ∧ t.txout = s.txout

/-- R107: a `SEND` that appends nothing only sets `DRIE`; if the buffer is empty one drain follows where
enabled, transmits nothing and clears `DRIE`, and with `DRIE = 0` no drain event occurs. -/
def Obligations.EmptySendCostsOneIdleDrain : Prop :=
  (∀ (s : State) (text : List Byte), s.Inv → s.sen = true →
    (text = [] ∨ nexti s.cfg.txcap s.head = s.tail) →
    exec (.send text) s = .next { s with drie := true }) ∧
  (∀ s : State, s.Inv → s.sen = true → s.gie = true → s.head = s.tail →
    runTrace [.cmd (.send []), .event .drain] s = some (.next { s with drie := false })) ∧
  (∀ s : State, s.drie = false → stimulate (.event .drain) s = none)

/-- The model's choice (log entry 13), made so that R65's sentence on longer texts holds of it: the term `SEND`
of more than 255 bytes, which no stream decodes to, has exactly the effect of one `SEND` of its first 255
bytes. -/
def Obligations.LongTextActsAsItsFirst255Bytes : Prop :=
  ∀ (s : State) (text : List Byte), s.Inv → exec (.send text) s = exec (serialSend text) s

/-- R20: a step sets `DRIE` only by performing a `SEND` and clears it only by a drain event that finds the
buffer empty. -/
def Obligations.DrieSetBySendClearedByIdleDrain : Prop :=
  ∀ s t : State, step s = .next t →
    (s.drie = false → t.drie = true → s.hostIsNext ∧ ∃ text rest, decode s.cmdIn = .ok (.send text) rest) ∧
    (s.drie = true → t.drie = false → s.turns.head? = some .txe ∧ s.gie = true ∧ s.head = s.tail)

/-! ### Events, masking, order, stops (spec/60_exceptions.md, spec/10_state.md) -/

/-- R125: inside a step `GIE` reads 0, so no event is enabled there; at the end of every command and event
`GIE` has its value at entry, except that `TINIT` leaves it 1. The clause over every body, that the end
value is `u.gie || s.gie`, is the model's choice (log entry 12): R125 speaks of the bodies the block has. -/
def Obligations.EveryStepMasksAndRestores : Prop :=
  (∀ (body : State → StepOutcome) (s : State) (e : Event),
    (enterCritical s).gie = false ∧ eventEnabled e (enterCritical s) = false ∧
    ∀ t, atomic body s = .next t →
      ∃ u, body { s with gie := false } = .next u ∧ t = { u with gie := u.gie || s.gie }) ∧
  (∀ (x : Stimulus) (s t : State), stimulate x s = some (.next t) →
    t.gie = if x = .cmd .tinit then true else s.gie)

/-- R123, R16: at every step boundary `tick_enabled = TRUN` and `GIE = TRUN`, so before `TINIT` no event of
either kind can occur. -/
def Obligations.NoEventBeforeTinit : Prop :=
  ∀ s : State, s.Inv →
    eventEnabled .tick s = s.trun ∧ s.gie = s.trun ∧
    (s.trun = false → ∀ e, stimulate (.event e) s = none)

/-- R124: `@TICK` and `@DRAIN` commute; `@TICK` commutes with `SINIT` and `SEND`; `@DRAIN` commutes with
`TADD`, `RDCLK` and `CAPTURE`. -/
def Obligations.IndependentStimuliCommute : Prop :=
  (∀ s : State, eventEnabled .tick s = true → eventEnabled .drain s = true →
    runTrace [.event .tick, .event .drain] s = runTrace [.event .drain, .event .tick] s) ∧
  (∀ s : State, eventEnabled .tick s = true →
    (∀ baud, runTrace [.event .tick, .cmd (.sinit baud)] s = runTrace [.cmd (.sinit baud), .event .tick] s) ∧
    ∀ text, runTrace [.event .tick, .cmd (.send text)] s = runTrace [.cmd (.send text), .event .tick] s) ∧
  (∀ s : State, eventEnabled .drain s = true →
    (∀ a p, runTrace [.event .drain, .cmd (.tadd a p)] s = runTrace [.cmd (.tadd a p), .event .drain] s) ∧
    runTrace [.event .drain, .cmd .rdclk] s = runTrace [.cmd .rdclk, .event .drain] s ∧
    runTrace [.event .drain, .cmd .capture] s = runTrace [.cmd .capture, .event .drain] s)

/-- R24: the write set of every stimulus: what it does not list is unchanged, the parameters and the input
streams among it. Of `TXBUF`, `SEND` writes only the cells at `HEAD` as it advances (R18). -/
def Obligations.StimuliKeepToTheirWriteSets : Prop :=
  ∀ (x : Stimulus) (s t : State), stimulate x s = some (.next t) →
    match x with
    | .cmd .tinit => t = { s with trun := t.trun, tie := t.tie, gie := t.gie }
    | .cmd (.tadd _ _) => t = { s with tasks := t.tasks }
    | .cmd .rdclk => t = { s with resp := t.resp }
    | .cmd .capture => t = { s with tasks := t.tasks, resp := t.resp } ∧
        ∀ i : Fin 10, (t.tasks[i]).map (fun τ => (τ.action, τ.period, τ.nextRun)) =
          (s.tasks[i]).map fun τ => (τ.action, τ.period, τ.nextRun)
    | .cmd (.sinit _) => t = { s with sen := t.sen, baud := t.baud }
    | .cmd (.send text) => t = { s with txbuf := t.txbuf, head := t.head, drie := t.drie } ∧
        (s.head < s.cfg.txcap → s.tail < s.cfg.txcap →
          let m := min text.length (ringFree s.cfg.txcap s.head s.tail)
          (∀ k < m, t.txbuf.read ((s.head + k) % s.cfg.txcap) = text[k]?) ∧
          ∀ a, (∀ k < m, a ≠ (s.head + k) % s.cfg.txcap) → t.txbuf.read a = s.txbuf.read a)
    | .event .tick => t = { s with clock := t.clock, tasks := t.tasks } ∧
        ∀ i : Fin 10, (t.tasks[i]).map (fun τ => (τ.action, τ.period)) =
          (s.tasks[i]).map fun τ => (τ.action, τ.period)
    | .event .drain => t = { s with tail := t.tail, drie := t.drie, txout := t.txout }

/-- R16, R17: `TRUN`, `TIE`, `GIE` and `SEN` go from 0 to 1 only, the first three by `TINIT` alone, `SEN` and
`BAUD` by `SINIT` alone; the OPEN parameters never change (log entries 1, 2). -/
def Obligations.ControlBitsAreSetOnceAndKept : Prop :=
  ∀ s t : State, step s = .next t →
    t.cfg = s.cfg ∧
    (s.trun = true → t.trun = true) ∧ (s.tie = true → t.tie = true) ∧ (s.gie = true → t.gie = true) ∧
    ((t.trun, t.tie, t.gie) ≠ (s.trun, s.tie, s.gie) →
      s.hostIsNext ∧ ∃ rest, decode s.cmdIn = .ok .tinit rest) ∧
    (s.sen = true → t.sen = true ∧ t.baud = s.baud) ∧
    ((t.sen, t.baud) ≠ (s.sen, s.baud) →
      s.hostIsNext ∧ ∃ baud rest, decode s.cmdIn = .ok (.sinit baud) rest)

/-- R21, R66: both traces are append-only; a step appends at most 21 response bytes, only for `RDCLK` and
`CAPTURE`, and at most one transmitted byte, only for a drain turn. -/
def Obligations.OutputTracesOnlyGrow : Prop :=
  ∀ s t : State, step s = .next t →
    (∃ bs, t.resp = s.resp ++ bs ∧ bs.length ≤ 21 ∧
      (bs ≠ [] → s.hostIsNext ∧
        ∃ rest, decode s.cmdIn = .ok .rdclk rest ∨ decode s.cmdIn = .ok .capture rest)) ∧
    (∃ bs, t.txout = s.txout ++ bs ∧ bs.length ≤ 1 ∧
      (bs ≠ [] → s.turns.head? = some .txe ∧ s.head ≠ s.tail))

/-- R121: a command is refused exactly in the three situations of the closed list, with that refusal. -/
def Obligations.RefusedExactlyAsListed : Prop :=
  ∀ (i : Instr) (s : State) (r : Refusal), exec i s = .refused r ↔
    (i = .tinit ∧ s.trun = true ∧ r = .tinitRepeated) ∨
    (∃ baud, i = .sinit baud ∧ s.sen = true ∧ r = .sinitRepeated) ∨
    (∃ text, i = .send text ∧ s.sen = false ∧ r = .sendBeforeSinit)

/-- R50, R120: from a state that meets the invariants a step's only faults are the decoder's verdicts; in
particular no drain reads a cell that was never written. -/
def Obligations.OnlyTheDecoderFaults : Prop :=
  ∀ (s : State) (f : Fault), s.Inv → step s = .fault f → f.fromDecoder = true

/-- The invariants of R14, R15, R18, R19, R28, R50 and R123 hold right after reset. -/
def Obligations.ResetMeetsTheInvariants : Prop := State.reset.Inv

/-- The invariants of R14, R15, R18, R19, R28, R50 and R123 are kept by every step, from every state that
meets them. -/
def Obligations.EveryStepKeepsTheInvariants : Prop :=
  ∀ s t : State, s.Inv → step s = .next t → t.Inv

/-- R26: the reset value of every state element, for every capacity and tick rate; `TXBUF` holds no value,
and the parameters of the instance are in their ranges. -/
def Obligations.ResetValuesAreTheSpecs : Prop :=
  (∀ c : Config,
    let s := State.resetWith c
    (∀ i : Fin 10, s.tasks[i] = none) ∧ s.clock = 0x0000 ∧
    s.trun = false ∧ s.tie = false ∧ s.gie = false ∧ s.sen = false ∧ s.baud = 0x00000000 ∧
    s.head = 0 ∧ s.tail = 0 ∧ (∀ i, s.txbuf.read i = none) ∧ s.drie = false ∧
    s.resp = [] ∧ s.txout = []) ∧
  State.reset = State.resetWith Config.machine ∧ Config.machine.wf

/-- R140: no event is enabled after reset, and the block does nothing until the host issues commands. That a
turn in which nothing can occur, an event's or the host's, is a step that answers a next state is the
model's choice (log entries 5 and 6). -/
def Obligations.ResetBlockDoesNothingByItself : Prop :=
  ∀ (c : Config) (turns : List Turn),
    (∀ e, eventEnabled e (State.resetWith c) = false) ∧
    step { State.resetWith c with turns := turns } = .next { State.resetWith c with turns := turns.tail }

/-! ### The pseudo-instructions (spec/40_tick_scheduler.md R85, R87) -/

/-- R85: `SCHEDRUN` hands the host the tokens of the ready slots in table order, from one `CAPTURE`. -/
def Obligations.SchedrunHandsOverTheSnapshot : Prop :=
  ∀ s : State, ∃ t, exec .capture s = .next t ∧
    schedrun s = some (s.tasks.toList.filterMap fun slot =>
      slot.bind fun τ => if τ.ready = true then some τ.action else none, t)

/-- R87: a `DELAY ms` that returns does so at least `ms` ticks after its start (mod 2^16), not early. -/
def Obligations.DelayNeverReturnsEarly : Prop :=
  ∀ (ms : U16) (gaps : List (List Event)) (s t : State),
    delay ms gaps s = .returned t → ms.toNat ≤ (t.clock - s.clock).toNat

/-- R87, R150: a host that polls at once and then after every tick returns from `DELAY ms` after exactly
`ms` ticks, across a wrap of the clock too. -/
def Obligations.DelayPolledEveryTickReturnsOnTime : Prop :=
  ∀ (ms : U16) (s : State), eventEnabled .tick s = true →
    ∃ t, delay ms ([] :: List.replicate ms.toNat [.tick]) s = .returned t ∧ t.clock = s.clock + ms

/-- R87, corner case (c): before `TINIT` a `DELAY ms` with `ms > 0` never ends, whatever the environment
does. -/
def Obligations.DelayHangsBeforeTinit : Prop :=
  ∀ (ms : U16) (gaps : List (List Event)) (s : State), s.Inv → s.trun = false → ms ≠ 0 →
    ∃ t, delay ms gaps s = .waiting t
end

