-- ==== Sys2Proof/Laws/Decode.lean ====
section
/-! SUPPORT. The decoder and the encoder, piece by piece: byte order, the opcode map, the operands of each
format. -/

namespace Sys2Proof

/-! ### Byte order -/

theorem le16_toNat (lo hi : Byte) : (le16 lo hi).toNat = lo.toNat + 256 * hi.toNat := by
  have := lo.isLt
  simp only [le16, BitVec.toNat_append]
  rw [Nat.shiftLeft_eq, Nat.mul_comm, ← Nat.two_pow_add_eq_or_of_lt lo.isLt]
  omega

theorem byteOf_toNat {w : Nat} (k : Nat) (v : BitVec w) : (byteOf k v).toNat = v.toNat / 256 ^ k % 256 := by
  simp only [byteOf, BitVec.extractLsb'_toNat, Nat.shiftRight_eq_div_pow, Nat.pow_mul]

theorem le32_toNat (b0 b1 b2 b3 : Byte) :
    (le32 b0 b1 b2 b3).toNat = b0.toNat + 256 * b1.toNat + 65536 * b2.toNat + 16777216 * b3.toNat := by
  have h (n : Nat) (x : BitVec n) (b : Byte) : (x ++ b).toNat = b.toNat + 256 * x.toNat := by
    rw [BitVec.toNat_append, Nat.shiftLeft_eq, Nat.mul_comm, ← Nat.two_pow_add_eq_or_of_lt b.isLt]
    omega
  simp only [le32]
  rw [h, h, h]
  omega

@[simp] theorem le16_byteOf (v : U16) : le16 (byteOf 0 v) (byteOf 1 v) = v := by
  apply BitVec.eq_of_toNat_eq
  have := v.isLt
  rw [le16_toNat, byteOf_toNat, byteOf_toNat]
  omega

@[simp] theorem byteOf_zero_le16 (lo hi : Byte) : byteOf 0 (le16 lo hi) = lo := by
  apply BitVec.eq_of_toNat_eq
  have := lo.isLt
  rw [byteOf_toNat, le16_toNat]
  omega

@[simp] theorem byteOf_one_le16 (lo hi : Byte) : byteOf 1 (le16 lo hi) = hi := by
  apply BitVec.eq_of_toNat_eq
  have := lo.isLt
  have := hi.isLt
  rw [byteOf_toNat, le16_toNat]
  omega

@[simp] theorem bytes16_le16 (lo hi : Byte) : bytes16 (le16 lo hi) = [lo, hi] := by
  simp [bytes16]

@[simp] theorem le32_byteOf (v : U32) :
    le32 (byteOf 0 v) (byteOf 1 v) (byteOf 2 v) (byteOf 3 v) = v := by
  apply BitVec.eq_of_toNat_eq
  have := v.isLt
  simp only [le32_toNat, byteOf_toNat]
  omega

@[simp] theorem bytes32_le32 (b0 b1 b2 b3 : Byte) : bytes32 (le32 b0 b1 b2 b3) = [b0, b1, b2, b3] := by
  have := b0.isLt
  have := b1.isLt
  have := b2.isLt
  have := b3.isLt
  simp only [bytes32, List.cons.injEq, and_true]
  refine ⟨?_, ?_, ?_, ?_⟩ <;>
    (apply BitVec.eq_of_toNat_eq; simp only [byteOf_toNat, le32_toNat]; omega)

@[simp] theorem length_bytes16 (v : U16) : (bytes16 v).length = 2 := rfl

@[simp] theorem length_bytes32 (v : U32) : (bytes32 v).length = 4 := rfl

/-! ### The opcode map -/

/-- The opcode byte of an operation (R63). -/
def Operation.opcode : Operation → Byte
  | .tinit => 0x01
  | .tadd => 0x02
  | .rdclk => 0x03
  | .capture => 0x04
  | .sinit => 0x10
  | .send => 0x11

/-- An opcode byte names an operation exactly when it is that operation's byte (R63). -/
theorem operationOf_eq_some_iff (b : Byte) (o : Operation) : operationOf b = some o ↔ b = o.opcode := by
  revert b o
  have h : ∀ b : BitVec 8, ∀ o ∈ [Operation.tinit, .tadd, .rdclk, .capture, .sinit, .send],
      operationOf b = some o ↔ b = o.opcode := by decide
  intro b o
  exact h b o (by cases o <;> simp)

theorem operationOf_eq_none_iff (b : Byte) :
    operationOf b = none ↔ b ∉ ([0x01, 0x02, 0x03, 0x04, 0x10, 0x11] : List Byte) := by
  revert b
  decide

/-! ### The formats -/

@[simp] theorem decodeW2_bytes16 (mk : U16 → U16 → Instr) (a p : U16) (rest : List Byte) :
    decodeW2 mk (bytes16 a ++ bytes16 p ++ rest) = .ok (mk a p) rest := by
  simp [decodeW2, bytes16]

@[simp] theorem decodeL_bytes32 (mk : U32 → Instr) (v : U32) (rest : List Byte) :
    decodeL mk (bytes32 v ++ rest) = .ok (mk v) rest := by
  simp [decodeL, bytes32]

/-- Format `V` reads a command where as many payload bytes follow as `n` says. -/
theorem decodeV_cons (mk : List Byte → Instr) (n : Byte) (bs : List Byte) :
    decodeV mk (n :: bs) =
      if n.toNat ≤ bs.length then .ok (mk (bs.take n.toNat)) (bs.drop n.toNat) else .needMore := by
  simp [decodeV]

theorem decodeV_text (mk : List Byte → Instr) (text rest : List Byte) (h : text.length ≤ sendMax) :
    decodeV mk (BitVec.ofNat 8 text.length :: (text ++ rest)) = .ok (mk text) rest := by
  have hn : (BitVec.ofNat 8 text.length).toNat = text.length := by
    simp only [BitVec.toNat_ofNat]
    have : text.length ≤ 255 := h
    omega
  simp [decodeV, hn]

/-- What format `W2` reads, when it reads a command. -/
theorem decodeW2_eq_ok {mk : U16 → U16 → Instr} {bs rest : List Byte} {i : Instr} (h : decodeW2 mk bs = .ok i rest) :
    ∃ a p, i = mk a p ∧ bs = bytes16 a ++ bytes16 p ++ rest := by
  match bs, h with
  | b1 :: b2 :: b3 :: b4 :: bs, h =>
    simp only [decodeW2, DecodeResult.ok.injEq] at h
    exact ⟨_, _, h.1.symm, by simp [h.2]⟩

/-- What format `L` reads, when it reads a command. -/
theorem decodeL_eq_ok {mk : U32 → Instr} {bs rest : List Byte} {i : Instr} (h : decodeL mk bs = .ok i rest) :
    ∃ v, i = mk v ∧ bs = bytes32 v ++ rest := by
  match bs, h with
  | b1 :: b2 :: b3 :: b4 :: bs, h =>
    simp only [decodeL, DecodeResult.ok.injEq] at h
    exact ⟨_, h.1.symm, by simp [h.2]⟩

/-- What format `V` reads, when it reads a command. -/
theorem decodeV_eq_ok {mk : List Byte → Instr} {bs rest : List Byte} {i : Instr} (h : decodeV mk bs = .ok i rest) :
    ∃ text, i = mk text ∧ text.length ≤ sendMax ∧ bs = BitVec.ofNat 8 text.length :: text ++ rest := by
  match bs, h with
  | n :: bs, h =>
    have hn := n.isLt
    rw [decodeV_cons] at h
    split at h
    · rename_i hle
      simp only [DecodeResult.ok.injEq] at h
      refine ⟨_, h.1.symm, ?_, ?_⟩
      · simp only [List.length_take, sendMax]
        omega
      · rw [← h.2]
        simp [Nat.min_eq_left hle]
    · cases h

/-! ### The table's numbering -/

@[simp] theorem length_integerBytes (n c : Nat) : (integerBytes n c).length = n := by
  induction n generalizing c with
  | zero => rfl
  | succ n ih => simp [integerBytes, ih]

@[simp] theorem length_tableBytes (nbits w : Nat) : (tableBytes nbits w).length = maxCommandBytes := by
  simp [tableBytes]

/-- The first bytes of a well-formed command tell its length. -/
theorem commandLength_encode {i : Instr} (h : i.wellFormed = true) (rest : List Byte) :
    commandLength (encode i ++ rest) = some (encode i).length := by
  cases i with
  | send text =>
    have : text.length ≤ 255 := by simpa [Instr.wellFormed] using h
    have hn : (BitVec.ofNat 8 text.length).toNat = text.length := by
      simp only [BitVec.toNat_ofNat]; omega
    show some (2 + (BitVec.ofNat 8 text.length).toNat) = some (text.length + 1 + 1)
    rw [hn, Nat.add_comm]
  | _ => rfl

end Sys2Proof
end

