-- ==== Sys2Proof/Laws/Firings.lean ====
section
/-! SUPPORT. The count of firings on a task's grid and the count of ticks in a trace
(spec/40_tick_scheduler.md R89). -/

namespace Sys2Proof.Machine

theorem firings_of_lt {d p n : Nat} (h : n < d) : firings d p n = 0 := if_pos h

theorem firings_of_le {d p n : Nat} (h : d ≤ n) : firings d p n = (n - d) / p + 1 := if_neg (Nat.not_lt.2 h)

/-- Some firing lies within `n` ticks exactly when the first does. -/
theorem firings_pos_iff (d p n : Nat) : 0 < firings d p n ↔ d ≤ n := by
  by_cases h : n < d
  · simp [firings_of_lt h, h]
  · simp [firings_of_le (Nat.not_lt.1 h), Nat.not_lt.1 h]

@[simp] theorem ticksIn_nil : ticksIn [] = 0 := rfl

theorem ticksIn_cons (x : Stimulus) (xs : List Stimulus) :
    ticksIn (x :: xs) = ticksIn xs + if x = .event .tick then 1 else 0 := by
  simp [ticksIn, List.count_cons]

@[simp] theorem ticksIn_ticksTrace (n : Nat) : ticksIn (ticksTrace n) = n := by
  simp [ticksIn, ticksTrace]

end Sys2Proof.Machine
end

