-- ==== Sys2Proof/Laws/State.lean ====
section
/-! SUPPORT. One lemma per field per update of State: the field written reads as the value written, every
other field reads as before. -/

namespace Sys2Proof.Machine

section
variable (s : State) (v : U16)
@[simp] theorem State.setClock_cfg : (s.setClock v).cfg = s.cfg := rfl
@[simp] theorem State.setClock_clock : (s.setClock v).clock = v := rfl
@[simp] theorem State.setClock_tasks : (s.setClock v).tasks = s.tasks := rfl
@[simp] theorem State.setClock_trun : (s.setClock v).trun = s.trun := rfl
@[simp] theorem State.setClock_tie : (s.setClock v).tie = s.tie := rfl
@[simp] theorem State.setClock_gie : (s.setClock v).gie = s.gie := rfl
@[simp] theorem State.setClock_sen : (s.setClock v).sen = s.sen := rfl
@[simp] theorem State.setClock_baud : (s.setClock v).baud = s.baud := rfl
@[simp] theorem State.setClock_txbuf : (s.setClock v).txbuf = s.txbuf := rfl
@[simp] theorem State.setClock_head : (s.setClock v).head = s.head := rfl
@[simp] theorem State.setClock_tail : (s.setClock v).tail = s.tail := rfl
@[simp] theorem State.setClock_drie : (s.setClock v).drie = s.drie := rfl
@[simp] theorem State.setClock_resp : (s.setClock v).resp = s.resp := rfl
@[simp] theorem State.setClock_txout : (s.setClock v).txout = s.txout := rfl
@[simp] theorem State.setClock_cmdIn : (s.setClock v).cmdIn = s.cmdIn := rfl
@[simp] theorem State.setClock_turns : (s.setClock v).turns = s.turns := rfl
end

section
variable (s : State) (v : Vector (Option Task) 10)
@[simp] theorem State.setTasks_cfg : (s.setTasks v).cfg = s.cfg := rfl
@[simp] theorem State.setTasks_clock : (s.setTasks v).clock = s.clock := rfl
@[simp] theorem State.setTasks_tasks : (s.setTasks v).tasks = v := rfl
@[simp] theorem State.setTasks_trun : (s.setTasks v).trun = s.trun := rfl
@[simp] theorem State.setTasks_tie : (s.setTasks v).tie = s.tie := rfl
@[simp] theorem State.setTasks_gie : (s.setTasks v).gie = s.gie := rfl
@[simp] theorem State.setTasks_sen : (s.setTasks v).sen = s.sen := rfl
@[simp] theorem State.setTasks_baud : (s.setTasks v).baud = s.baud := rfl
@[simp] theorem State.setTasks_txbuf : (s.setTasks v).txbuf = s.txbuf := rfl
@[simp] theorem State.setTasks_head : (s.setTasks v).head = s.head := rfl
@[simp] theorem State.setTasks_tail : (s.setTasks v).tail = s.tail := rfl
@[simp] theorem State.setTasks_drie : (s.setTasks v).drie = s.drie := rfl
@[simp] theorem State.setTasks_resp : (s.setTasks v).resp = s.resp := rfl
@[simp] theorem State.setTasks_txout : (s.setTasks v).txout = s.txout := rfl
@[simp] theorem State.setTasks_cmdIn : (s.setTasks v).cmdIn = s.cmdIn := rfl
@[simp] theorem State.setTasks_turns : (s.setTasks v).turns = s.turns := rfl
end

section
variable (s : State) (v : Bool)
@[simp] theorem State.setTrun_cfg : (s.setTrun v).cfg = s.cfg := rfl
@[simp] theorem State.setTrun_clock : (s.setTrun v).clock = s.clock := rfl
@[simp] theorem State.setTrun_tasks : (s.setTrun v).tasks = s.tasks := rfl
@[simp] theorem State.setTrun_trun : (s.setTrun v).trun = v := rfl
@[simp] theorem State.setTrun_tie : (s.setTrun v).tie = s.tie := rfl
@[simp] theorem State.setTrun_gie : (s.setTrun v).gie = s.gie := rfl
@[simp] theorem State.setTrun_sen : (s.setTrun v).sen = s.sen := rfl
@[simp] theorem State.setTrun_baud : (s.setTrun v).baud = s.baud := rfl
@[simp] theorem State.setTrun_txbuf : (s.setTrun v).txbuf = s.txbuf := rfl
@[simp] theorem State.setTrun_head : (s.setTrun v).head = s.head := rfl
@[simp] theorem State.setTrun_tail : (s.setTrun v).tail = s.tail := rfl
@[simp] theorem State.setTrun_drie : (s.setTrun v).drie = s.drie := rfl
@[simp] theorem State.setTrun_resp : (s.setTrun v).resp = s.resp := rfl
@[simp] theorem State.setTrun_txout : (s.setTrun v).txout = s.txout := rfl
@[simp] theorem State.setTrun_cmdIn : (s.setTrun v).cmdIn = s.cmdIn := rfl
@[simp] theorem State.setTrun_turns : (s.setTrun v).turns = s.turns := rfl
end

section
variable (s : State) (v : Bool)
@[simp] theorem State.setTie_cfg : (s.setTie v).cfg = s.cfg := rfl
@[simp] theorem State.setTie_clock : (s.setTie v).clock = s.clock := rfl
@[simp] theorem State.setTie_tasks : (s.setTie v).tasks = s.tasks := rfl
@[simp] theorem State.setTie_trun : (s.setTie v).trun = s.trun := rfl
@[simp] theorem State.setTie_tie : (s.setTie v).tie = v := rfl
@[simp] theorem State.setTie_gie : (s.setTie v).gie = s.gie := rfl
@[simp] theorem State.setTie_sen : (s.setTie v).sen = s.sen := rfl
@[simp] theorem State.setTie_baud : (s.setTie v).baud = s.baud := rfl
@[simp] theorem State.setTie_txbuf : (s.setTie v).txbuf = s.txbuf := rfl
@[simp] theorem State.setTie_head : (s.setTie v).head = s.head := rfl
@[simp] theorem State.setTie_tail : (s.setTie v).tail = s.tail := rfl
@[simp] theorem State.setTie_drie : (s.setTie v).drie = s.drie := rfl
@[simp] theorem State.setTie_resp : (s.setTie v).resp = s.resp := rfl
@[simp] theorem State.setTie_txout : (s.setTie v).txout = s.txout := rfl
@[simp] theorem State.setTie_cmdIn : (s.setTie v).cmdIn = s.cmdIn := rfl
@[simp] theorem State.setTie_turns : (s.setTie v).turns = s.turns := rfl
end

section
variable (s : State) (v : Bool)
@[simp] theorem State.setGie_cfg : (s.setGie v).cfg = s.cfg := rfl
@[simp] theorem State.setGie_clock : (s.setGie v).clock = s.clock := rfl
@[simp] theorem State.setGie_tasks : (s.setGie v).tasks = s.tasks := rfl
@[simp] theorem State.setGie_trun : (s.setGie v).trun = s.trun := rfl
@[simp] theorem State.setGie_tie : (s.setGie v).tie = s.tie := rfl
@[simp] theorem State.setGie_gie : (s.setGie v).gie = v := rfl
@[simp] theorem State.setGie_sen : (s.setGie v).sen = s.sen := rfl
@[simp] theorem State.setGie_baud : (s.setGie v).baud = s.baud := rfl
@[simp] theorem State.setGie_txbuf : (s.setGie v).txbuf = s.txbuf := rfl
@[simp] theorem State.setGie_head : (s.setGie v).head = s.head := rfl
@[simp] theorem State.setGie_tail : (s.setGie v).tail = s.tail := rfl
@[simp] theorem State.setGie_drie : (s.setGie v).drie = s.drie := rfl
@[simp] theorem State.setGie_resp : (s.setGie v).resp = s.resp := rfl
@[simp] theorem State.setGie_txout : (s.setGie v).txout = s.txout := rfl
@[simp] theorem State.setGie_cmdIn : (s.setGie v).cmdIn = s.cmdIn := rfl
@[simp] theorem State.setGie_turns : (s.setGie v).turns = s.turns := rfl
end

section
variable (s : State) (v : Bool)
@[simp] theorem State.setSen_cfg : (s.setSen v).cfg = s.cfg := rfl
@[simp] theorem State.setSen_clock : (s.setSen v).clock = s.clock := rfl
@[simp] theorem State.setSen_tasks : (s.setSen v).tasks = s.tasks := rfl
@[simp] theorem State.setSen_trun : (s.setSen v).trun = s.trun := rfl
@[simp] theorem State.setSen_tie : (s.setSen v).tie = s.tie := rfl
@[simp] theorem State.setSen_gie : (s.setSen v).gie = s.gie := rfl
@[simp] theorem State.setSen_sen : (s.setSen v).sen = v := rfl
@[simp] theorem State.setSen_baud : (s.setSen v).baud = s.baud := rfl
@[simp] theorem State.setSen_txbuf : (s.setSen v).txbuf = s.txbuf := rfl
@[simp] theorem State.setSen_head : (s.setSen v).head = s.head := rfl
@[simp] theorem State.setSen_tail : (s.setSen v).tail = s.tail := rfl
@[simp] theorem State.setSen_drie : (s.setSen v).drie = s.drie := rfl
@[simp] theorem State.setSen_resp : (s.setSen v).resp = s.resp := rfl
@[simp] theorem State.setSen_txout : (s.setSen v).txout = s.txout := rfl
@[simp] theorem State.setSen_cmdIn : (s.setSen v).cmdIn = s.cmdIn := rfl
@[simp] theorem State.setSen_turns : (s.setSen v).turns = s.turns := rfl
end

section
variable (s : State) (v : U32)
@[simp] theorem State.setBaud_cfg : (s.setBaud v).cfg = s.cfg := rfl
@[simp] theorem State.setBaud_clock : (s.setBaud v).clock = s.clock := rfl
@[simp] theorem State.setBaud_tasks : (s.setBaud v).tasks = s.tasks := rfl
@[simp] theorem State.setBaud_trun : (s.setBaud v).trun = s.trun := rfl
@[simp] theorem State.setBaud_tie : (s.setBaud v).tie = s.tie := rfl
@[simp] theorem State.setBaud_gie : (s.setBaud v).gie = s.gie := rfl
@[simp] theorem State.setBaud_sen : (s.setBaud v).sen = s.sen := rfl
@[simp] theorem State.setBaud_baud : (s.setBaud v).baud = v := rfl
@[simp] theorem State.setBaud_txbuf : (s.setBaud v).txbuf = s.txbuf := rfl
@[simp] theorem State.setBaud_head : (s.setBaud v).head = s.head := rfl
@[simp] theorem State.setBaud_tail : (s.setBaud v).tail = s.tail := rfl
@[simp] theorem State.setBaud_drie : (s.setBaud v).drie = s.drie := rfl
@[simp] theorem State.setBaud_resp : (s.setBaud v).resp = s.resp := rfl
@[simp] theorem State.setBaud_txout : (s.setBaud v).txout = s.txout := rfl
@[simp] theorem State.setBaud_cmdIn : (s.setBaud v).cmdIn = s.cmdIn := rfl
@[simp] theorem State.setBaud_turns : (s.setBaud v).turns = s.turns := rfl
end

section
variable (s : State) (v : Memory)
@[simp] theorem State.setTxbuf_cfg : (s.setTxbuf v).cfg = s.cfg := rfl
@[simp] theorem State.setTxbuf_clock : (s.setTxbuf v).clock = s.clock := rfl
@[simp] theorem State.setTxbuf_tasks : (s.setTxbuf v).tasks = s.tasks := rfl
@[simp] theorem State.setTxbuf_trun : (s.setTxbuf v).trun = s.trun := rfl
@[simp] theorem State.setTxbuf_tie : (s.setTxbuf v).tie = s.tie := rfl
@[simp] theorem State.setTxbuf_gie : (s.setTxbuf v).gie = s.gie := rfl
@[simp] theorem State.setTxbuf_sen : (s.setTxbuf v).sen = s.sen := rfl
@[simp] theorem State.setTxbuf_baud : (s.setTxbuf v).baud = s.baud := rfl
@[simp] theorem State.setTxbuf_txbuf : (s.setTxbuf v).txbuf = v := rfl
@[simp] theorem State.setTxbuf_head : (s.setTxbuf v).head = s.head := rfl
@[simp] theorem State.setTxbuf_tail : (s.setTxbuf v).tail = s.tail := rfl
@[simp] theorem State.setTxbuf_drie : (s.setTxbuf v).drie = s.drie := rfl
@[simp] theorem State.setTxbuf_resp : (s.setTxbuf v).resp = s.resp := rfl
@[simp] theorem State.setTxbuf_txout : (s.setTxbuf v).txout = s.txout := rfl
@[simp] theorem State.setTxbuf_cmdIn : (s.setTxbuf v).cmdIn = s.cmdIn := rfl
@[simp] theorem State.setTxbuf_turns : (s.setTxbuf v).turns = s.turns := rfl
end

section
variable (s : State) (v : Nat)
@[simp] theorem State.setHead_cfg : (s.setHead v).cfg = s.cfg := rfl
@[simp] theorem State.setHead_clock : (s.setHead v).clock = s.clock := rfl
@[simp] theorem State.setHead_tasks : (s.setHead v).tasks = s.tasks := rfl
@[simp] theorem State.setHead_trun : (s.setHead v).trun = s.trun := rfl
@[simp] theorem State.setHead_tie : (s.setHead v).tie = s.tie := rfl
@[simp] theorem State.setHead_gie : (s.setHead v).gie = s.gie := rfl
@[simp] theorem State.setHead_sen : (s.setHead v).sen = s.sen := rfl
@[simp] theorem State.setHead_baud : (s.setHead v).baud = s.baud := rfl
@[simp] theorem State.setHead_txbuf : (s.setHead v).txbuf = s.txbuf := rfl
@[simp] theorem State.setHead_head : (s.setHead v).head = v := rfl
@[simp] theorem State.setHead_tail : (s.setHead v).tail = s.tail := rfl
@[simp] theorem State.setHead_drie : (s.setHead v).drie = s.drie := rfl
@[simp] theorem State.setHead_resp : (s.setHead v).resp = s.resp := rfl
@[simp] theorem State.setHead_txout : (s.setHead v).txout = s.txout := rfl
@[simp] theorem State.setHead_cmdIn : (s.setHead v).cmdIn = s.cmdIn := rfl
@[simp] theorem State.setHead_turns : (s.setHead v).turns = s.turns := rfl
end

section
variable (s : State) (v : Nat)
@[simp] theorem State.setTail_cfg : (s.setTail v).cfg = s.cfg := rfl
@[simp] theorem State.setTail_clock : (s.setTail v).clock = s.clock := rfl
@[simp] theorem State.setTail_tasks : (s.setTail v).tasks = s.tasks := rfl
@[simp] theorem State.setTail_trun : (s.setTail v).trun = s.trun := rfl
@[simp] theorem State.setTail_tie : (s.setTail v).tie = s.tie := rfl
@[simp] theorem State.setTail_gie : (s.setTail v).gie = s.gie := rfl
@[simp] theorem State.setTail_sen : (s.setTail v).sen = s.sen := rfl
@[simp] theorem State.setTail_baud : (s.setTail v).baud = s.baud := rfl
@[simp] theorem State.setTail_txbuf : (s.setTail v).txbuf = s.txbuf := rfl
@[simp] theorem State.setTail_head : (s.setTail v).head = s.head := rfl
@[simp] theorem State.setTail_tail : (s.setTail v).tail = v := rfl
@[simp] theorem State.setTail_drie : (s.setTail v).drie = s.drie := rfl
@[simp] theorem State.setTail_resp : (s.setTail v).resp = s.resp := rfl
@[simp] theorem State.setTail_txout : (s.setTail v).txout = s.txout := rfl
@[simp] theorem State.setTail_cmdIn : (s.setTail v).cmdIn = s.cmdIn := rfl
@[simp] theorem State.setTail_turns : (s.setTail v).turns = s.turns := rfl
end

section
variable (s : State) (v : Bool)
@[simp] theorem State.setDrie_cfg : (s.setDrie v).cfg = s.cfg := rfl
@[simp] theorem State.setDrie_clock : (s.setDrie v).clock = s.clock := rfl
@[simp] theorem State.setDrie_tasks : (s.setDrie v).tasks = s.tasks := rfl
@[simp] theorem State.setDrie_trun : (s.setDrie v).trun = s.trun := rfl
@[simp] theorem State.setDrie_tie : (s.setDrie v).tie = s.tie := rfl
@[simp] theorem State.setDrie_gie : (s.setDrie v).gie = s.gie := rfl
@[simp] theorem State.setDrie_sen : (s.setDrie v).sen = s.sen := rfl
@[simp] theorem State.setDrie_baud : (s.setDrie v).baud = s.baud := rfl
@[simp] theorem State.setDrie_txbuf : (s.setDrie v).txbuf = s.txbuf := rfl
@[simp] theorem State.setDrie_head : (s.setDrie v).head = s.head := rfl
@[simp] theorem State.setDrie_tail : (s.setDrie v).tail = s.tail := rfl
@[simp] theorem State.setDrie_drie : (s.setDrie v).drie = v := rfl
@[simp] theorem State.setDrie_resp : (s.setDrie v).resp = s.resp := rfl
@[simp] theorem State.setDrie_txout : (s.setDrie v).txout = s.txout := rfl
@[simp] theorem State.setDrie_cmdIn : (s.setDrie v).cmdIn = s.cmdIn := rfl
@[simp] theorem State.setDrie_turns : (s.setDrie v).turns = s.turns := rfl
end

section
variable (s : State) (v : List Byte)
@[simp] theorem State.setResp_cfg : (s.setResp v).cfg = s.cfg := rfl
@[simp] theorem State.setResp_clock : (s.setResp v).clock = s.clock := rfl
@[simp] theorem State.setResp_tasks : (s.setResp v).tasks = s.tasks := rfl
@[simp] theorem State.setResp_trun : (s.setResp v).trun = s.trun := rfl
@[simp] theorem State.setResp_tie : (s.setResp v).tie = s.tie := rfl
@[simp] theorem State.setResp_gie : (s.setResp v).gie = s.gie := rfl
@[simp] theorem State.setResp_sen : (s.setResp v).sen = s.sen := rfl
@[simp] theorem State.setResp_baud : (s.setResp v).baud = s.baud := rfl
@[simp] theorem State.setResp_txbuf : (s.setResp v).txbuf = s.txbuf := rfl
@[simp] theorem State.setResp_head : (s.setResp v).head = s.head := rfl
@[simp] theorem State.setResp_tail : (s.setResp v).tail = s.tail := rfl
@[simp] theorem State.setResp_drie : (s.setResp v).drie = s.drie := rfl
@[simp] theorem State.setResp_resp : (s.setResp v).resp = v := rfl
@[simp] theorem State.setResp_txout : (s.setResp v).txout = s.txout := rfl
@[simp] theorem State.setResp_cmdIn : (s.setResp v).cmdIn = s.cmdIn := rfl
@[simp] theorem State.setResp_turns : (s.setResp v).turns = s.turns := rfl
end

section
variable (s : State) (v : List Byte)
@[simp] theorem State.setTxout_cfg : (s.setTxout v).cfg = s.cfg := rfl
@[simp] theorem State.setTxout_clock : (s.setTxout v).clock = s.clock := rfl
@[simp] theorem State.setTxout_tasks : (s.setTxout v).tasks = s.tasks := rfl
@[simp] theorem State.setTxout_trun : (s.setTxout v).trun = s.trun := rfl
@[simp] theorem State.setTxout_tie : (s.setTxout v).tie = s.tie := rfl
@[simp] theorem State.setTxout_gie : (s.setTxout v).gie = s.gie := rfl
@[simp] theorem State.setTxout_sen : (s.setTxout v).sen = s.sen := rfl
@[simp] theorem State.setTxout_baud : (s.setTxout v).baud = s.baud := rfl
@[simp] theorem State.setTxout_txbuf : (s.setTxout v).txbuf = s.txbuf := rfl
@[simp] theorem State.setTxout_head : (s.setTxout v).head = s.head := rfl
@[simp] theorem State.setTxout_tail : (s.setTxout v).tail = s.tail := rfl
@[simp] theorem State.setTxout_drie : (s.setTxout v).drie = s.drie := rfl
@[simp] theorem State.setTxout_resp : (s.setTxout v).resp = s.resp := rfl
@[simp] theorem State.setTxout_txout : (s.setTxout v).txout = v := rfl
@[simp] theorem State.setTxout_cmdIn : (s.setTxout v).cmdIn = s.cmdIn := rfl
@[simp] theorem State.setTxout_turns : (s.setTxout v).turns = s.turns := rfl
end

section
variable (s : State) (v : List Byte)
@[simp] theorem State.setCmdIn_cfg : (s.setCmdIn v).cfg = s.cfg := rfl
@[simp] theorem State.setCmdIn_clock : (s.setCmdIn v).clock = s.clock := rfl
@[simp] theorem State.setCmdIn_tasks : (s.setCmdIn v).tasks = s.tasks := rfl
@[simp] theorem State.setCmdIn_trun : (s.setCmdIn v).trun = s.trun := rfl
@[simp] theorem State.setCmdIn_tie : (s.setCmdIn v).tie = s.tie := rfl
@[simp] theorem State.setCmdIn_gie : (s.setCmdIn v).gie = s.gie := rfl
@[simp] theorem State.setCmdIn_sen : (s.setCmdIn v).sen = s.sen := rfl
@[simp] theorem State.setCmdIn_baud : (s.setCmdIn v).baud = s.baud := rfl
@[simp] theorem State.setCmdIn_txbuf : (s.setCmdIn v).txbuf = s.txbuf := rfl
@[simp] theorem State.setCmdIn_head : (s.setCmdIn v).head = s.head := rfl
@[simp] theorem State.setCmdIn_tail : (s.setCmdIn v).tail = s.tail := rfl
@[simp] theorem State.setCmdIn_drie : (s.setCmdIn v).drie = s.drie := rfl
@[simp] theorem State.setCmdIn_resp : (s.setCmdIn v).resp = s.resp := rfl
@[simp] theorem State.setCmdIn_txout : (s.setCmdIn v).txout = s.txout := rfl
@[simp] theorem State.setCmdIn_cmdIn : (s.setCmdIn v).cmdIn = v := rfl
@[simp] theorem State.setCmdIn_turns : (s.setCmdIn v).turns = s.turns := rfl
end

section
variable (s : State) (v : List Turn)
@[simp] theorem State.setTurns_cfg : (s.setTurns v).cfg = s.cfg := rfl
@[simp] theorem State.setTurns_clock : (s.setTurns v).clock = s.clock := rfl
@[simp] theorem State.setTurns_tasks : (s.setTurns v).tasks = s.tasks := rfl
@[simp] theorem State.setTurns_trun : (s.setTurns v).trun = s.trun := rfl
@[simp] theorem State.setTurns_tie : (s.setTurns v).tie = s.tie := rfl
@[simp] theorem State.setTurns_gie : (s.setTurns v).gie = s.gie := rfl
@[simp] theorem State.setTurns_sen : (s.setTurns v).sen = s.sen := rfl
@[simp] theorem State.setTurns_baud : (s.setTurns v).baud = s.baud := rfl
@[simp] theorem State.setTurns_txbuf : (s.setTurns v).txbuf = s.txbuf := rfl
@[simp] theorem State.setTurns_head : (s.setTurns v).head = s.head := rfl
@[simp] theorem State.setTurns_tail : (s.setTurns v).tail = s.tail := rfl
@[simp] theorem State.setTurns_drie : (s.setTurns v).drie = s.drie := rfl
@[simp] theorem State.setTurns_resp : (s.setTurns v).resp = s.resp := rfl
@[simp] theorem State.setTurns_txout : (s.setTurns v).txout = s.txout := rfl
@[simp] theorem State.setTurns_cmdIn : (s.setTurns v).cmdIn = s.cmdIn := rfl
@[simp] theorem State.setTurns_turns : (s.setTurns v).turns = v := rfl
end

end Sys2Proof.Machine
end

