-- ==== Sys2Proof/Laws/Memory.lean ====
section
/-! SUPPORT. The byte array: a read after a write, and the canonical form, which every operation keeps. -/

namespace Sys2Proof.Machine

@[simp] theorem Memory.read_nil (i : Nat) : Memory.read [] i = none := rfl

/-- A read after a write to the same index gives the value written. -/
@[simp] theorem Memory.read_write_self (m : Memory) (i : Nat) (b : Byte) : (m.write i b).read i = some b := by
  induction m with
  | nil => simp [Memory.write, Memory.read]
  | cons c m ih =>
    simp only [Memory.write]
    split
    · simp [Memory.read]
    · split
      · simp [Memory.read]
      · rename_i h
        simp [Memory.read, Ne.symm h, ih]

/-- A write leaves every other index alone. -/
theorem Memory.read_write_of_ne (m : Memory) {i j : Nat} (b : Byte) (h : j ≠ i) :
    (m.write i b).read j = m.read j := by
  induction m with
  | nil => simp [Memory.write, Memory.read, Ne.symm h]
  | cons c m ih =>
    simp only [Memory.write]
    split
    · simp [Memory.read, Ne.symm h]
    · split
      · rename_i hc
        simp [Memory.read, Ne.symm h, ← hc]
      · simp [Memory.read, ih]

/-- The cells of a write: the old ones and the one written. -/
theorem Memory.mem_write {m : Memory} {i : Nat} {b : Byte} {c : Host.Cell} (h : c ∈ m.write i b) :
    c = (i, b) ∨ c ∈ m := by
  induction m with
  | nil => simpa [Memory.write] using h
  | cons d m ih =>
    simp only [Memory.write] at h
    split at h
    · simpa using h
    · split at h
      · rcases List.mem_cons.1 h with h | h
        · exact .inl h
        · exact .inr (List.mem_cons_of_mem _ h)
      · rcases List.mem_cons.1 h with h | h
        · exact .inr (by simp [h])
        · exact (ih h).imp_right (List.mem_cons_of_mem _)

/-- A write keeps the canonical form. -/
theorem Memory.write_wf {m : Memory} (h : m.wf) (i : Nat) (b : Byte) : (m.write i b).wf := by
  induction m with
  | nil => simp [Memory.write]
  | cons d m ih =>
    obtain ⟨hd, hm⟩ := List.pairwise_cons.1 h
    simp only [Memory.write]
    split
    · rename_i hi
      refine List.pairwise_cons.2 ⟨fun c hc => ?_, h⟩
      rcases List.mem_cons.1 hc with rfl | hc
      · exact hi
      · exact Nat.lt_trans hi (hd c hc)
    · split
      · rename_i hi
        exact List.pairwise_cons.2 ⟨fun c hc => by simpa [hi] using hd c hc, hm⟩
      · rename_i h1 h2
        refine List.pairwise_cons.2 ⟨fun c hc => ?_, ih hm⟩
        rcases Memory.mem_write hc with rfl | hc
        · show d.1 < i
          omega
        · exact hd c hc

/-- The reset memory is canonical. -/
theorem Memory.reset_wf : State.reset.txbuf.wf := by simp [State.reset, State.resetWith]

/-- What `MemRead` answers. -/
theorem memRead_eq_ok_iff {s : State} {i : Nat} {b : Byte} :
    memRead s i = .ok b ↔ i < s.cfg.txcap ∧ s.txbuf.read i = some b := by
  simp only [memRead]
  split
  · cases h : s.txbuf.read i <;> simp [*]
  · simp [*]

/-- What `MemWrite` answers. -/
theorem memWrite_eq_ok_iff {s t : State} {i : Nat} {b : Byte} :
    memWrite s i b = .ok t ↔ i < s.cfg.txcap ∧ t = s.setTxbuf (s.txbuf.write i b) := by
  simp only [memWrite]
  split <;> simp [*, eq_comm]

end Sys2Proof.Machine
end

