-- ==== Sys2Proof/Laws/Ops.lean ====
section
/-! SUPPORT. One lemma per shared operation, saying once all it can do: the critical section, the FIFO's
two primitives, the scans of the task table and the registration. -/

namespace Sys2Proof.Machine

/-! ### The critical section -/

/-- A step that ends in a next state: its body did, from the masked state, and the mask was lifted. -/
theorem atomic_eq_next_iff {body : State → StepOutcome} {s t : State} :
    atomic body s = .next t ↔ ∃ u, body (enterCritical s) = .next u ∧ t = leaveCritical s.gie u := by
  unfold atomic
  cases body (enterCritical s) <;> simp [eq_comm]

theorem atomic_eq_fault_iff {body : State → StepOutcome} {s : State} {f : Fault} :
    atomic body s = .fault f ↔ body (enterCritical s) = .fault f := by
  unfold atomic
  cases body (enterCritical s) <;> simp

theorem atomic_eq_refused_iff {body : State → StepOutcome} {s : State} {r : Refusal} :
    atomic body s = .refused r ↔ body (enterCritical s) = .refused r := by
  unfold atomic
  cases body (enterCritical s) <;> simp

/-- Lifting the mask of a body that did not write `GIE` gives back the value at entry. -/
theorem leaveCritical_of_masked {g : Bool} {s : State} (h : s.gie = false) : leaveCritical g s = s.setGie g := by
  simp [leaveCritical, h]

/-! ### The FIFO's primitives -/

/-- All an append can do (R102). -/
theorem append_eq_ok_iff {s t : State} {b : Byte} :
    append s b = .ok t ↔ s.head < s.cfg.txcap ∧
      t = (s.setTxbuf (s.txbuf.write s.head b)).setHead (nexti s.cfg.txcap s.head) := by
  by_cases h : s.head < s.cfg.txcap <;> simp [append, memWrite, appendIndex, h, eq_comm]

/-- All a remove can do (R102). -/
theorem remove_eq_ok_iff {s t : State} {b : Byte} :
    remove s = .ok (b, t) ↔ s.tail < s.cfg.txcap ∧ s.txbuf.read s.tail = some b ∧
      t = s.setTail (nexti s.cfg.txcap s.tail) := by
  simp only [remove, removeIndex]
  cases h : memRead s s.tail with
  | ok c =>
    have := memRead_eq_ok_iff.1 h
    simp [this, eq_comm]
  | error f =>
    simp only [reduceCtorEq, false_iff]
    intro hc
    rw [memRead_eq_ok_iff.2 ⟨hc.1, hc.2.1⟩] at h
    cases h

/-! ### The task table -/

/-- A scan changes each slot by itself. -/
@[simp] theorem getElem_scanSlots (f : Option Task → Option Task) (v : Vector (Option Task) 10) (i : Nat)
    (h : i < 10) : (scanSlots f v)[i] = f v[i] := by
  simp [scanSlots]

theorem scanSlots_eq_map (f : Option Task → Option Task) (v : Vector (Option Task) 10) :
    scanSlots f v = v.map f := by
  ext i h
  rw [getElem_scanSlots]
  simp

/-- The index of the first empty slot. -/
theorem firstEmpty_eq_some_iff (v : Vector (Option Task) 10) (i : Nat) :
    firstEmpty v = some i ↔ ∃ h : i < 10, v[i] = none ∧ ∀ j, ∀ _ : j < i, v[j] ≠ none := by
  simp [firstEmpty, List.findIdx?_eq_some_iff_getElem, Option.ne_none_iff_isSome]

/-- There is no empty slot. -/
theorem firstEmpty_eq_none_iff (v : Vector (Option Task) 10) :
    firstEmpty v = none ↔ ∀ i, ∀ _ : i < 10, v[i] ≠ none := by
  simp only [firstEmpty, List.findIdx?_eq_none_iff]
  constructor
  · intro h i hi hn
    have := h v[i] (by simp)
    simp [hn] at this
  · intro h x hx
    obtain ⟨i, hi, rfl⟩ := List.mem_iff_getElem.1 hx
    simp at hi
    have := h i hi
    cases hv : v[i] <;> simp_all

/-- All a registration can do (R81): it fills the first empty slot, or there is none and it does nothing. -/
theorem register_cases (v : Vector (Option Task) 10) (t : Task) :
    (∃ i, ∃ h : i < 10, v[i] = none ∧ (∀ j, ∀ _ : j < i, v[j] ≠ none) ∧ register v t = v.set i (some t)) ∨
    ((∀ i, ∀ _ : i < 10, v[i] ≠ none) ∧ register v t = v) := by
  cases hf : firstEmpty v with
  | some i =>
    obtain ⟨h, h1, h2⟩ := (firstEmpty_eq_some_iff v i).1 hf
    exact .inl ⟨i, h, h1, h2, by simp [register, hf, Vector.setIfInBounds, Vector.set, Array.setIfInBounds, h]⟩
  | none => exact .inr ⟨(firstEmpty_eq_none_iff v).1 hf, by simp [register, hf]⟩

/-- A slot after a registration: an occupied one is as before. -/
theorem getElem_register_of_some {v : Vector (Option Task) 10} {t u : Task} {i : Nat} (hi : i < 10)
    (h : v[i] = some u) : (register v t)[i] = some u := by
  rcases register_cases v t with ⟨j, hj, hn, -, hr⟩ | ⟨-, hr⟩
  · have hne : j ≠ i := by
      rintro rfl
      rw [h] at hn
      cases hn
    simp [hr, Vector.getElem_set_ne _ _ hne, h]
  · simp [hr, h]

end Sys2Proof.Machine
end

