-- ==== Sys2Proof/Laws/PerInstr.lean ====
section
/-! SUPPORT. Laws stated for all commands, one lemma per constructor of `Instr`. -/

namespace Sys2Proof.Laws

/-- The encoding of a well-formed command is as long as its first bytes say (spec/30_encoding.md R65). -/
def EncodedLength.Statement (i : Instr) : Prop :=
  i.wellFormed = true → commandLength (encode i) = some (encode i).length

theorem EncodedLength.tinit : EncodedLength.Statement .tinit := fun _ => rfl

theorem EncodedLength.tadd (action period : U16) : EncodedLength.Statement (.tadd action period) := fun _ => rfl

theorem EncodedLength.rdclk : EncodedLength.Statement .rdclk := fun _ => rfl

theorem EncodedLength.capture : EncodedLength.Statement .capture := fun _ => rfl

theorem EncodedLength.sinit (baud : U32) : EncodedLength.Statement (.sinit baud) := fun _ => rfl

theorem EncodedLength.send (text : List Byte) : EncodedLength.Statement (.send text) := by
  intro h
  have hl : text.length ≤ 255 := by simpa [Instr.wellFormed] using h
  have ho : (operationOf 0x11).map Operation.format = some .v := rfl
  have hn : (BitVec.ofNat 8 text.length).toNat = text.length := Nat.mod_eq_of_lt (by omega)
  simp only [encode, commandLength, ho, List.head?_cons, Option.map_some, hn, List.length_cons]
  congr 1
  omega

end Sys2Proof.Laws
end

