-- ==== Sys2Proof/Laws/Ring.lean ====
section
/-! SUPPORT. The ring's index arithmetic (spec/00_scope.md R6, spec/10_state.md R19), the cells it holds,
and the one lemma that says all an append loop can do (spec/41_serial_tx.md R101, R102). -/

namespace Sys2Proof.Machine

section
variable {cap h t : Nat}

theorem nexti_lt (hc : 0 < cap) (i : Nat) : nexti cap i < cap := Nat.mod_lt _ hc

/-- The successor of an index in range. -/
theorem nexti_eq (hi : h < cap) : nexti cap h = if h + 1 = cap then 0 else h + 1 := by
  unfold nexti
  split
  · rename_i e
    rw [e, Nat.mod_self]
  · exact Nat.mod_eq_of_lt (by omega)

/-- The count of indices in range, without the modulus. -/
theorem ringCount_eq (hh : h < cap) (ht : t < cap) :
    ringCount cap h t = if t ≤ h then h - t else h + cap - t := by
  unfold ringCount
  split
  · rw [show h + cap - t = h - t + cap by omega, Nat.add_mod_right]
    exact Nat.mod_eq_of_lt (by omega)
  · exact Nat.mod_eq_of_lt (by omega)

theorem ringCount_lt (hh : h < cap) (ht : t < cap) : ringCount cap h t < cap := by
  rw [ringCount_eq hh ht]
  split <;> omega

/-- Empty is count 0 (R19). -/
theorem ringCount_eq_zero_iff (hh : h < cap) (ht : t < cap) : ringCount cap h t = 0 ↔ h = t := by
  rw [ringCount_eq hh ht]
  split <;> omega

/-- Full is count `TXCAP - 1` (R19). -/
theorem nexti_eq_tail_iff (hh : h < cap) (ht : t < cap) : nexti cap h = t ↔ ringCount cap h t = cap - 1 := by
  rw [ringCount_eq hh ht, nexti_eq hh]
  split <;> split <;> omega

/-- Full is free space 0 (R19). -/
theorem ringFree_eq_zero_iff (hh : h < cap) (ht : t < cap) : ringFree cap h t = 0 ↔ nexti cap h = t := by
  have := ringCount_lt hh ht
  rw [nexti_eq_tail_iff hh ht, ringFree]
  omega

/-- An append adds one to the count. -/
theorem ringCount_nexti_head (hh : h < cap) (ht : t < cap) (hf : nexti cap h ≠ t) :
    ringCount cap (nexti cap h) t = ringCount cap h t + 1 := by
  rw [ringCount_eq (nexti_lt (by omega) h) ht, ringCount_eq hh ht]
  rw [nexti_eq hh] at hf ⊢
  split at hf <;> simp only [*, if_true, if_false] <;> split <;> split <;> omega

/-- An append takes one from the free space. -/
theorem ringFree_nexti_head (hh : h < cap) (ht : t < cap) (hf : nexti cap h ≠ t) :
    ringFree cap (nexti cap h) t + 1 = ringFree cap h t := by
  have h0 := mt (ringFree_eq_zero_iff hh ht).1 hf
  have := ringCount_nexti_head hh ht hf
  unfold ringFree at *
  omega

/-- A remove takes one from the count. -/
theorem ringCount_nexti_tail (hh : h < cap) (ht : t < cap) (he : h ≠ t) :
    ringCount cap h (nexti cap t) + 1 = ringCount cap h t := by
  rw [ringCount_eq hh (nexti_lt (by omega) t), ringCount_eq hh ht, nexti_eq ht]
  split <;> split <;> split <;> omega

/-- The head is the count away from the tail. -/
theorem tail_add_ringCount (hh : h < cap) (ht : t < cap) : (t + ringCount cap h t) % cap = h := by
  rw [ringCount_eq hh ht]
  split
  · rw [show t + (h - t) = h by omega]
    exact Nat.mod_eq_of_lt hh
  · rw [show t + (h + cap - t) = h + cap by omega, Nat.add_mod_right]
    exact Nat.mod_eq_of_lt hh

theorem nexti_add_mod (i k : Nat) : (nexti cap i + k) % cap = (i + (k + 1)) % cap := by
  rw [nexti, Nat.mod_add_mod]
  congr 1
  omega

end

/-! ### The cells of the ring -/

@[simp] theorem length_cellsFrom (cap : Nat) (m : Memory) (i n : Nat) : (cellsFrom cap m i n).length = n := by
  induction n generalizing i with
  | zero => rfl
  | succ n ih => simp [cellsFrom, ih]

/-- The `k`-th cell from an index in range. -/
theorem getElem?_cellsFrom (cap : Nat) (m : Memory) {i n k : Nat} (hi : i < cap) (hk : k < n) :
    (cellsFrom cap m i n)[k]? = some (m.read ((i + k) % cap)) := by
  induction n generalizing i k with
  | zero => omega
  | succ n ih =>
    cases k with
    | zero => simp [cellsFrom, Nat.mod_eq_of_lt hi]
    | succ k =>
      simp only [cellsFrom, List.getElem?_cons_succ]
      rw [ih (nexti_lt (by omega) i) (by omega), nexti_add_mod]

/-- One more cell stands at the end. -/
theorem cellsFrom_succ (cap : Nat) (m : Memory) {i : Nat} (n : Nat) (hi : i < cap) :
    cellsFrom cap m i (n + 1) = cellsFrom cap m i n ++ [m.read ((i + n) % cap)] := by
  induction n generalizing i with
  | zero => simp [cellsFrom, Nat.mod_eq_of_lt hi]
  | succ n ih =>
    rw [cellsFrom, ih (nexti_lt (by omega) i), nexti_add_mod]
    rfl

/-- A write outside the cells leaves them alone. -/
theorem cellsFrom_write (cap : Nat) (m : Memory) {i : Nat} (n : Nat) (j : Nat) (b : Byte) (hi : i < cap)
    (hj : ∀ k < n, (i + k) % cap ≠ j) : cellsFrom cap (m.write j b) i n = cellsFrom cap m i n := by
  induction n generalizing i with
  | zero => rfl
  | succ n ih =>
    have h0 : i ≠ j := by simpa [Nat.mod_eq_of_lt hi] using hj 0 (by omega)
    rw [cellsFrom, cellsFrom, Memory.read_write_of_ne m b h0,
      ih (nexti_lt (by omega) i) fun k hk => by simpa [nexti_add_mod] using hj (k + 1) (by omega)]

/-- No index of the cells held is the head. -/
theorem held_index_ne_head {cap h t k : Nat} (hh : h < cap) (ht : t < cap) (hk : k < ringCount cap h t) :
    (t + k) % cap ≠ h := by
  rw [ringCount_eq hh ht] at hk
  have hc : (t + k) % cap = if t + k < cap then t + k else t + k - cap := by
    split
    · exact Nat.mod_eq_of_lt (by assumption)
    · rw [Nat.mod_eq_sub_mod (by omega)]
      refine Nat.mod_eq_of_lt ?_
      split at hk <;> omega
  rw [hc]
  split at hk <;> split <;> omega

/-- What a write at the head adds to the cells held. -/
theorem heldCells_append {s : State} (b : Byte) (hh : s.head < s.cfg.txcap) (ht : s.tail < s.cfg.txcap)
    (hf : nexti s.cfg.txcap s.head ≠ s.tail) :
    heldCells ((s.setTxbuf (s.txbuf.write s.head b)).setHead (nexti s.cfg.txcap s.head)) =
      heldCells s ++ [some b] := by
  simp only [heldCells, State.setHead_cfg, State.setTxbuf_cfg, State.setHead_txbuf, State.setTxbuf_txbuf,
    State.setHead_tail, State.setTxbuf_tail, State.setHead_head]
  rw [ringCount_nexti_head hh ht hf, cellsFrom_succ _ _ _ ht, tail_add_ringCount hh ht,
    cellsFrom_write _ _ _ _ _ ht fun k hk => held_index_ne_head hh ht hk, Memory.read_write_self]

/-- The oldest cell held, and the rest. -/
theorem heldCells_cons {s : State} (hh : s.head < s.cfg.txcap) (ht : s.tail < s.cfg.txcap) (he : s.head ≠ s.tail) :
    heldCells s = s.txbuf.read s.tail :: heldCells (s.setTail (nexti s.cfg.txcap s.tail)) := by
  simp only [heldCells, State.setTail_cfg, State.setTail_txbuf, State.setTail_head, State.setTail_tail]
  rw [← ringCount_nexti_tail hh ht he, cellsFrom]

/-- An empty ring holds no cell. -/
theorem heldCells_eq_nil {s : State} (ht : s.tail < s.cfg.txcap) (he : s.head = s.tail) : heldCells s = [] := by
  rw [heldCells, (ringCount_eq_zero_iff (he ▸ ht) ht).2 he]
  rfl

/-! ### The append loop -/

/-- The byte array after a text is stored from an index on. -/
def storeText (cap : Nat) : Memory → Nat → List Byte → Memory
  | m, _, [] => m
  | m, i, b :: bs => storeText cap (m.write i b) (nexti cap i) bs

/-- All the append loop of `SEND` can do: it stores the first `free` bytes from the head on and moves the
head past them (R101, closed form). -/
theorem appendAll_eq (text : List Byte) {s : State} (hh : s.head < s.cfg.txcap) (ht : s.tail < s.cfg.txcap) :
    let kept := text.take (ringFree s.cfg.txcap s.head s.tail)
    appendAll text s = .ok ((s.setTxbuf (storeText s.cfg.txcap s.txbuf s.head kept)).setHead
      ((s.head + kept.length) % s.cfg.txcap)) := by
  induction text generalizing s with
  | nil => simp [appendAll, storeText, Nat.mod_eq_of_lt hh, State.setTxbuf, State.setHead]
  | cons b bs ih =>
    simp only [appendAll, ringFull, beq_iff_eq]
    split
    · rename_i hfull
      simp [(ringFree_eq_zero_iff hh ht).2 hfull, storeText, Nat.mod_eq_of_lt hh, State.setTxbuf, State.setHead]
    · rename_i hfull
      have hfree := ringFree_nexti_head hh ht hfull
      have hw : append s b =
          .ok ((s.setTxbuf (s.txbuf.write s.head b)).setHead (nexti s.cfg.txcap s.head)) := by
        simp [append, memWrite, appendIndex, hh]
      simp only [hw]
      rw [ih (by simpa using nexti_lt (by omega) s.head) (by simpa using ht), ← hfree]
      simp [storeText, nexti_add_mod, State.setTxbuf, State.setHead]

/-- Storing a text keeps the canonical form. -/
theorem storeText_wf {cap : Nat} (text : List Byte) {m : Memory} (i : Nat) (h : m.wf) :
    (storeText cap m i text).wf := by
  induction text generalizing m i with
  | nil => exact h
  | cons b bs ih => exact ih _ (Memory.write_wf h i b)

/-- Storing a text from an index in range writes indices in range only. -/
theorem storeText_mem_lt {cap : Nat} (text : List Byte) {m : Memory} {i : Nat} (hi : i < cap)
    (h : ∀ c ∈ m, c.1 < cap) : ∀ c ∈ storeText cap m i text, c.1 < cap := by
  induction text generalizing m i with
  | nil => exact h
  | cons b bs ih =>
    refine ih (nexti_lt (by omega) i) fun c hc => ?_
    rcases Memory.mem_write hc with rfl | hc
    · exact hi
    · exact h c hc

/-- The cells held after a text that fits is stored. -/
theorem heldCells_storeText (text : List Byte) {s : State} (hh : s.head < s.cfg.txcap)
    (ht : s.tail < s.cfg.txcap) (hl : text.length ≤ ringFree s.cfg.txcap s.head s.tail) :
    heldCells ((s.setTxbuf (storeText s.cfg.txcap s.txbuf s.head text)).setHead
      ((s.head + text.length) % s.cfg.txcap)) = heldCells s ++ text.map some := by
  induction text generalizing s with
  | nil => simp [storeText, Nat.mod_eq_of_lt hh, State.setTxbuf, State.setHead]
  | cons b bs ih =>
    have hfull : nexti s.cfg.txcap s.head ≠ s.tail := by
      intro h0
      have := (ringFree_eq_zero_iff hh ht).2 h0
      simp at hl
      omega
    have hfree := ringFree_nexti_head hh ht hfull
    have := ih (s := (s.setTxbuf (s.txbuf.write s.head b)).setHead (nexti s.cfg.txcap s.head))
      (by simpa using nexti_lt (by omega) s.head) (by simpa using ht) (by simp at hl ⊢; omega)
    rw [heldCells_append b hh ht hfull] at this
    simp [nexti_add_mod, State.setTxbuf, State.setHead] at this
    simpa [storeText, State.setTxbuf, State.setHead] using this

end Sys2Proof.Machine
end

