-- ==== Sys2Proof/Laws/Step.lean ====
section
/-! SUPPORT. What one step can be: the inversion of `step` by the agent whose turn it is. -/

namespace Sys2Proof.Machine

/-- The state in which the agent at turn acts: its turn is taken off the list. -/
def afterTurn (s : State) : State := s.setTurns s.turns.tail

@[simp] theorem afterTurn_of_nil {s : State} (h : s.turns = []) : afterTurn s = s := by
  cases s
  simp_all [afterTurn, State.setTurns]

/-- A step is the turn of the agent named, the host's when none is named. -/
theorem step_eq (s : State) : step s = runTurn (s.turns.head?.getD .host) (afterTurn s) := by
  unfold step
  split
  · rename_i h
    simp [h, runTurn]
  · rename_i h
    simp [h, afterTurn]

/-- All an event's turn can be: the event's step where it is enabled, nothing where it is not. -/
theorem eventTurn_eq (e : Event) (s : State) :
    eventTurn e s = if eventEnabled e s then execEvent e s else .next s := by
  simp only [eventTurn, stimulate]
  cases eventEnabled e s <;> simp

/-- All a host's turn that answers a next state can be: an empty stream, or a command performed. -/
theorem hostTurn_eq_next {s t : State} (h : hostTurn s = .next t) :
    (s.cmdIn = [] ∧ t = s) ∨
    ∃ i rest, decode s.cmdIn = .ok i rest ∧ exec i (s.setCmdIn rest) = .next t := by
  unfold hostTurn at h
  split at h
  · rename_i hc
    exact .inl ⟨hc, by simpa using h.symm⟩
  · rename_i b0 bs hc
    split at h
    · rename_i i rest hd
      exact .inr ⟨i, rest, hc ▸ hd, h⟩
    · cases h
    · cases h

/-- All a step that answers a next state can be: nothing, a command, or an enabled event. -/
theorem step_cases {s t : State} (h : step s = .next t) :
    t = afterTurn s ∨
    (∃ i rest, decode s.cmdIn = .ok i rest ∧ exec i ((afterTurn s).setCmdIn rest) = .next t) ∨
    ∃ e, eventEnabled e (afterTurn s) = true ∧ execEvent e (afterTurn s) = .next t := by
  rw [step_eq] at h
  have hev : ∀ e, eventTurn e (afterTurn s) = .next t → t = afterTurn s ∨
      ∃ e, eventEnabled e (afterTurn s) = true ∧ execEvent e (afterTurn s) = .next t := by
    intro e he
    rw [eventTurn_eq] at he
    split at he
    · exact .inr ⟨e, by assumption, he⟩
    · exact .inl (by simpa using he.symm)
  generalize s.turns.head?.getD .host = turn at h
  cases turn with
  | host =>
    rcases hostTurn_eq_next h with ⟨-, ht⟩ | ⟨i, rest, hd, he⟩
    · exact .inl ht
    · exact .inr (.inl ⟨i, rest, hd, he⟩)
  | tick => exact (hev .tick h).imp_right .inr
  | txe => exact (hev .drain h).imp_right .inr

end Sys2Proof.Machine
end

