-- ==== Sys2Proof/Tests/Slice0.lean ====
section
/-! SUPPORT. Tests whose expected values are the spec's (spec/95_test_vectors.md, spec/30_encoding.md R68;
the vector is named in each docstring), the WellFormed smoke test, and for every statement with hypotheses
a witness that meets them. -/

namespace Sys2Proof.Tests

open Sys2Proof Sys2Proof.Machine

/-! ### Helpers -/

/-- The outcome is a next state with this property. -/
def nextAnd (p : State → Bool) : StepOutcome → Bool
  | .next t => p t
  | .fault _ => false
  | .refused _ => false

/-- The outcome is this fault. -/
def faultsWith (f : Fault) : StepOutcome → Bool
  | .next _ => false
  | .fault g => decide (g = f)
  | .refused _ => false

/-- The outcome is this refusal. -/
def refusesWith (r : Refusal) : StepOutcome → Bool
  | .next _ => false
  | .fault _ => false
  | .refused q => decide (q = r)

/-- A table with these slots, the others empty. -/
def table (s0 s1 s2 : Option Task) : Vector (Option Task) 10 :=
  #v[s0, s1, s2, none, none, none, none, none, none, none]

/-- Ten background tasks (as V-CAP-6, with one token). -/
def fullTable : Vector (Option Task) 10 :=
  let t : Option Task := some ⟨0x0100, 0, 0, true⟩
  #v[t, t, t, t, t, t, t, t, t, t]

/-- Nine background tasks, the last slot empty. -/
def lastEmpty : Vector (Option Task) 10 := fullTable.set 9 none

/-- The reset state of an instance with a ring of `cap` bytes. -/
def reset (cap : Nat) : State := State.resetWith ⟨cap, 1000⟩

/-- `TRUN = TIE = GIE = SEN = 1`, a ring of 8 bytes, a clock and a table. -/
def live (clock : U16) (tasks : Vector (Option Task) 10) : State :=
  { reset 8 with clock := clock, tasks := tasks, trun := true, tie := true, gie := true, sen := true }

/-- A table with a task due at 5, a background task, and a ready task. -/
def demoTable : Vector (Option Task) 10 :=
  table (some ⟨0x00A1, 5, 5, false⟩) (some ⟨0x00B2, 0, 0, true⟩) (some ⟨0x00C3, 7, 14, true⟩)

theorem demoTable_occupied : ∀ i j : Fin 10, i < j → demoTable[i] = none → demoTable[j] = none := by decide

/-- A state that meets the invariants, for the witnesses: the timer on or off, and a ring. -/
def demo (on : Bool) (buf : Memory) (head tail : Nat) (drie : Bool) : State :=
  { reset 8 with
    clock := if on then 4 else 0
    tasks := demoTable
    trun := on
    tie := on
    gie := on
    sen := true
    txbuf := buf
    head := head
    tail := tail
    drie := drie }

theorem demo_inv (on : Bool) (buf : Memory) (head tail : Nat) (drie : Bool) (hh : head < 8) (ht : tail < 8)
    (hw : buf.wf) (hl : ∀ c ∈ buf, c.1 < 8) (hn : none ∉ heldCells (demo on buf head tail drie))
    (ha : head ≠ tail → drie = true) : (demo on buf head tail drie).Inv where
  cfg_wf := by show 2 ≤ 8 ∧ 8 ≤ 256 ∧ 0 < 1000; omega
  head_lt := hh
  tail_lt := ht
  mem_wf := hw
  mem_lt := hl
  held_written := hn
  armed := fun h => ⟨ha h, rfl⟩
  background := by
    show ∀ (i : Fin 10) (t : Task), demoTable[i] = some t → t.period = 0 → t.ready = true ∧ t.nextRun = 0
    intro i t h hp
    fin_cases i <;> simp [demoTable, table] at h <;> subst h <;> simp_all
  occupied := demoTable_occupied
  timer_bits := ⟨rfl, rfl⟩
  clock_stopped := by
    show on = false → (if on then (4 : U16) else 0) = 0
    intro h
    simp [h]

/-- Three bytes held, across the end of the ring: `61 62 63` at 6, 7, 0. -/
def wrapped : State := demo true [(0, 0x63), (6, 0x61), (7, 0x62)] 1 6 true

/-- The full ring of V-SEND-3, `TXBUF[0..6] = 31 .. 37`. -/
def full : State :=
  demo true [(0, 0x31), (1, 0x32), (2, 0x33), (3, 0x34), (4, 0x35), (5, 0x36), (6, 0x37)] 7 0 true

/-- An empty ring, armed (the start of V-SEND-11). -/
def armedEmpty : State := demo true [] 2 2 true

/-- An empty ring, disarmed. -/
def idle : State := demo true [] 3 3 false

/-- Before `TINIT`. -/
def off : State := demo false [] 0 0 false

theorem wrapped_inv : wrapped.Inv :=
  demo_inv _ _ _ _ _ (by decide) (by decide) (by decide) (by decide) (by decide) (by decide)

theorem full_inv : full.Inv :=
  demo_inv _ _ _ _ _ (by decide) (by decide) (by decide) (by decide) (by decide) (by decide)

theorem armedEmpty_inv : armedEmpty.Inv :=
  demo_inv _ _ _ _ _ (by decide) (by decide) (by decide) (by decide) (by decide) (by decide)

theorem idle_inv : idle.Inv :=
  demo_inv _ _ _ _ _ (by decide) (by decide) (by decide) (by decide) (by decide) (by decide)

theorem off_inv : off.Inv :=
  demo_inv _ _ _ _ _ (by decide) (by decide) (by decide) (by decide) (by decide) (by decide)

/-! ### WellFormed -/

/-- The one check of WellFormed refuses a text of 256 bytes (R61, R65). -/
theorem test_wellFormed_refuses_256_bytes : (Instr.send (List.replicate 256 0x41)).wellFormed = false := by
  rw [Instr.wellFormed, List.length_replicate]; rfl

theorem test_wellFormed_takes_255_bytes : (Instr.send (List.replicate 255 0x41)).wellFormed = true := by
  rw [Instr.wellFormed, List.length_replicate]; rfl

/-! ### Decoding, with words written out from the spec's encoding -/

/-- V-DEC-1. -/
theorem test_decode_tinit : decode [0x01] = .ok .tinit [] := by decide

/-- V-DEC-3. -/
theorem test_decode_tadd : decode [0x02, 0x34, 0x12, 0x78, 0x56] = .ok (.tadd 0x1234 0x5678) [] := by decide

/-- V-DEC-4. -/
theorem test_decode_rdclk : decode [0x03] = .ok .rdclk [] := by decide

/-- V-DEC-5. -/
theorem test_decode_capture : decode [0x04] = .ok .capture [] := by decide

/-- V-DEC-7. -/
theorem test_decode_sinit : decode [0x10, 0x00, 0xC2, 0x01, 0x00] = .ok (.sinit 115200) [] := by decide

/-- V-DEC-10. -/
theorem test_decode_send : decode [0x11, 0x03, 0x01, 0x04, 0x10] = .ok (.send [0x01, 0x04, 0x10]) [] := by decide

/-- V-DEC-9, with a byte after the command. -/
theorem test_decode_send_empty : decode [0x11, 0x00, 0x04] = .ok (.send []) [0x04] := by decide

/-- The same, bit by bit from R61: `C = {b, a, 0x02}` with `a = 0x00A1`, `b = 0x0064` (V-DEC-2). -/
theorem test_decode_tadd_bits :
    decodeTableWord 40 0b0000000001100100_0000000010100001_00000010 = some (.tadd 0x00A1 100) := by decide

/-- The same for format `L`: `C = {v, 0x10}` with `v = 9600` (V-DEC-6). -/
theorem test_decode_sinit_bits :
    decodeTableWord 40 0b00000000000000000010010110000000_00010000 = some (.sinit 9600) := by decide

/-- A `SEND` word of the opcode table with a length byte of 2 and no payload bits: two zero bytes. -/
theorem test_decode_send_table : decodeTableWord 16 0x0211 = some (.send [0x00, 0x00]) := by decide

/-- V-DEC-12, V-DEC-13. -/
theorem test_decode_illegal :
    ([0x00, 0x05, 0x0F, 0x12, 0x20, 0x80, 0xFF] : List Byte).map (fun b => decode [b]) =
      ([0x00, 0x05, 0x0F, 0x12, 0x20, 0x80, 0xFF] : List Byte).map .illegal := by decide

/-- V-DEC-14 to V-DEC-16 and the empty sequence. -/
theorem test_decode_prefixes :
    ([[0x02, 0xA1, 0x00, 0x64], [0x11, 0x05, 0x41, 0x42], [0x11], []] : List (List Byte)).map decode =
      List.replicate 4 .needMore := by decide

/-- R63: the six opcodes are distinct. -/
theorem test_opcodes_distinct : (opcodeMap.map Prod.fst).Nodup := by decide

/-- R65: the length each command's first bytes tell. -/
theorem test_command_lengths :
    ([[0x01], [0x02], [0x03], [0x04], [0x10], [0x11], [0x11, 0xFF], [0x07]] : List (List Byte)).map commandLength =
      [some 1, some 5, some 1, some 1, some 5, none, some 257, none] := by decide

/-! ### Encoding: the bytes of V-DEC-1 to V-DEC-8 -/

theorem test_encode :
    ([.tinit, .tadd 0x00A1 100, .rdclk, .capture, .sinit 9600, .send [0x48, 0x69]] : List Instr).map encode =
      [[0x01], [0x02, 0xA1, 0x00, 0x64, 0x00], [0x03], [0x04], [0x10, 0x80, 0x25, 0x00, 0x00],
        [0x11, 0x02, 0x48, 0x69]] := by decide

/-! ### The commands -/

/-- V-TINIT-5: `TINIT` does not touch the clock. -/
theorem test_tinit :
    nextAnd (fun t => decide (t = { reset 8 with clock := 0x1234, trun := true, tie := true, gie := true }))
      (exec .tinit { reset 8 with clock := 0x1234 }) = true := by decide

/-- V-TINIT-2. -/
theorem test_tinit_repeated : refusesWith .tinitRepeated (exec .tinit (live 0 demoTable)) = true := by decide

/-- V-TADD-3: `NEXT_RUN` is 100, not 600. -/
theorem test_tadd :
    nextAnd (fun t => decide (t = live 500 (table (some ⟨0x0007, 100, 100, false⟩) none none)))
      (exec (.tadd 0x0007 100) (live 500 (table none none none))) = true := by decide

/-- V-TADD-4. -/
theorem test_tadd_full :
    nextAnd (fun t => decide (t = live 5 fullTable)) (exec (.tadd 0x010A 0) (live 5 fullTable)) = true := by decide

/-- V-CLK-2. -/
theorem test_rdclk :
    nextAnd (fun t => decide (t.resp = [0x34, 0x12])) (exec .rdclk { reset 8 with clock := 0x1234 }) = true := by
  decide

/-- V-CAP-1. -/
theorem test_capture :
    nextAnd
      (fun t => decide (t.resp = [0x02, 0xA1, 0x00, 0xB2, 0x00] ∧
        t.tasks = table (some ⟨0x00A1, 100, 200, false⟩) (some ⟨0x00B2, 0, 0, true⟩) none))
      (exec .capture (live 100 (table (some ⟨0x00A1, 100, 200, true⟩) (some ⟨0x00B2, 0, 0, true⟩) none))) =
      true := by decide

/-- V-CAP-8: a slot that is not ready is skipped. -/
theorem test_capture_skips :
    nextAnd (fun t => decide (t.resp = [0x01, 0xC3, 0x00]))
      (exec .capture (live 7 (table (some ⟨0x00A1, 5, 10, false⟩) (some ⟨0x00C3, 7, 14, true⟩) none))) = true := by
  decide

/-- V-SINIT-1. -/
theorem test_sinit :
    nextAnd (fun t => decide (t = { reset 8 with sen := true, baud := 0x00002580 }))
      (exec (.sinit 9600) (reset 8)) = true := by decide

/-- V-SINIT-2. -/
theorem test_sinit_repeated :
    refusesWith .sinitRepeated (exec (.sinit 115200) (live 0 demoTable)) = true := by decide

/-- V-SEND-6, up to its drains: four bytes land at 6, 7, 0, 1 and two are dropped. -/
theorem test_send_wraps_and_drops :
    nextAnd
      (fun t => decide (t.head = 2 ∧ t.tail = 3 ∧ t.drie = true ∧
        t.txbuf = [(0, 0x57), (1, 0x58), (3, 0x64), (4, 0x65), (5, 0x66), (6, 0x55), (7, 0x56)]))
      (exec (.send [0x55, 0x56, 0x57, 0x58, 0x59, 0x5A])
        (demo true [(3, 0x64), (4, 0x65), (5, 0x66)] 6 3 true)) = true := by decide

/-- V-SEND-8. -/
theorem test_send_before_sinit :
    refusesWith .sendBeforeSinit (exec (.send [0x41]) (reset 8)) = true := by decide

/-! ### The events -/

/-- V-TICK-7: several slots in one tick, the background slot skipped. -/
theorem test_tick :
    nextAnd
      (fun t => decide (t = live 5 (table (some ⟨0x0100, 5, 10, true⟩) (some ⟨0x0101, 0, 0, true⟩)
        (some ⟨0x0102, 5, 10, true⟩))))
      (execEvent .tick (live 4 (table (some ⟨0x0100, 5, 5, false⟩) (some ⟨0x0101, 0, 0, true⟩)
        (some ⟨0x0102, 5, 5, false⟩)))) = true := by decide

/-- V-TICK-4: `NEXT_RUN` wraps. -/
theorem test_tick_wraps :
    nextAnd (fun t => decide (t = live 0xFFFA (table (some ⟨0x0001, 10, 0x0004, true⟩) none none)))
      (execEvent .tick (live 0xFFF9 (table (some ⟨0x0001, 10, 0xFFFA, false⟩) none none))) = true := by decide

/-- V-DRAIN-3: the cell keeps its stale byte. -/
theorem test_drain :
    nextAnd
      (fun t => decide (t = { live 9 demoTable with
        txbuf := [(1, 0x6F), (2, 0x6B)], head := 3, tail := 2, drie := true, txout := [0x6F] }))
      (execEvent .drain { live 9 demoTable with
        txbuf := [(1, 0x6F), (2, 0x6B)], head := 3, tail := 1, drie := true }) = true := by decide

/-- V-TINIT-3, V-DRAIN-1, V-DRAIN-2: the event is not enabled. -/
theorem test_not_enabled :
    eventEnabled .tick (reset 8) = false ∧
    eventEnabled .drain { live 0 demoTable with head := 4, tail := 4 } = false ∧
    eventEnabled .drain { reset 8 with head := 3, tail := 1, drie := true } = false := by decide

/-- V-CMP-1 to V-CMP-17. -/
theorem test_comparator :
    ([(0x0064, 0x0064), (0x0063, 0x0064), (0x0065, 0x0064), (0xFFFB, 0x0004), (0xFFFF, 0x0004),
      (0x0000, 0x0004), (0x0004, 0x0004), (0x0002, 0xFFFE), (0x0000, 0xFFFF), (0x8063, 0x0064),
      (0x8064, 0x0064), (0x0000, 0x8000), (0x0000, 0x8001), (0xFFFF, 0x0000), (0x0000, 0x0000),
      (0x7FFF, 0x0000), (0x8000, 0x0000)] : List (U16 × U16)).map (fun x => reached x.1 x.2) =
      [true, false, true, false, false, false, true, true, true, true, false, false, true, false, true, true,
        false] := by decide

/-! ### Steps -/

/-- V-DEC-12: an illegal byte at the front of the stream. -/
theorem test_step_illegal :
    faultsWith (.illegalOpcode 0x00) (step { reset 8 with cmdIn := [0x00] }) = true := by decide

/-- V-DEC-14. -/
theorem test_step_truncated :
    faultsWith (.truncatedCommand [0x02, 0xA1, 0x00, 0x64])
      (step { reset 8 with cmdIn := [0x02, 0xA1, 0x00, 0x64] }) = true := by decide

/-- V-DEC-17, its first command: `TINIT` takes effect, the illegal byte is next. -/
theorem test_step_tinit :
    nextAnd (fun t => decide (t = { reset 8 with trun := true, tie := true, gie := true, cmdIn := [0x07, 0x04] }))
      (step { reset 8 with cmdIn := [0x01, 0x07, 0x04] }) = true := by decide

/-- From the machine's own reset state, whatever its capacity: the opcode table's words, placed, run. -/
theorem test_placed_words_run_from_reset :
    nextAnd (fun t => t.trun) (step (State.reset.withFetchWord 8 0x01)) = true ∧
    nextAnd (fun t => decide (t.tasks = table (some ⟨0x00A1, 100, 100, false⟩) none none))
      (step (State.reset.withFetchWord 40 0x006400A102)) = true ∧
    nextAnd (fun t => decide (t.resp = [0x00, 0x00])) (step (State.reset.withFetchWord 8 0x03)) = true ∧
    nextAnd (fun t => decide (t.resp = [0x00])) (step (State.reset.withFetchWord 8 0x04)) = true ∧
    nextAnd (fun t => decide (t.baud = 9600)) (step (State.reset.withFetchWord 40 0x0000258010)) = true ∧
    refusesWith .sendBeforeSinit (step (State.reset.withFetchWord 16 0x0011)) = true ∧
    faultsWith (.illegalOpcode 0x05) (step (State.reset.withFetchWord 8 0x05)) = true := by decide

/-! ### The pseudo-instructions -/

/-- V-DELAY-2: `DELAY 0` falls through at the first poll. -/
theorem test_delay_zero :
    delay 0 [[]] (reset 8) = .returned { reset 8 with resp := [0x00, 0x00, 0x00, 0x00] } := by decide

/-- R85: the bodies run in the order captured; two slots of one token may issue differently. -/
theorem test_execution_phase :
    executionPhase (fun k a => if a = 0x00A1 then [if k = 0 then .rdclk else .send [0x41]] else [])
      [0x00A1, 0x00B2, 0x00A1] = [.rdclk, .send [0x41]] := by decide

/-! ### The assembler (R68) -/

/-- R68's examples. -/
theorem test_assemble :
    assemble ["TINIT ; start".toList, "TADD 0x00A1, 100".toList, "SINIT 9600".toList, "SEND \"Hi\"".toList,
      "".toList, "SEND 0x48 0x69".toList] =
      some [0x01, 0x02, 0xA1, 0x00, 0x64, 0x00, 0x10, 0x80, 0x25, 0x00, 0x00, 0x11, 0x02, 0x48, 0x69,
        0x11, 0x02, 0x48, 0x69] := by decide

/-- An event is never assembled, and a number must fit its operand. -/
theorem test_assemble_refuses :
    assemble ["@TICK".toList] = none ∧ assemble ["TADD 65536, 0".toList] = none := by decide

/-- A trace text (R8), with a repeated drain as V-SEND-11 writes it. -/
theorem test_trace_text :
    traceText ["TINIT".toList, "@TICK*2".toList, "@DRAIN".toList, "@DRAIN*2".toList] =
      some [.cmd .tinit, .event .tick, .event .tick, .event .drain, .event .drain, .event .drain] := by decide

/-! ### Witnesses: states and operands that meet the hypotheses of the statements -/

theorem witness_DecodeAndEncodeAreInverse :
    (Instr.send [0x48, 0x69]).wellFormed = true ∧
    ([0x11, 0x02, 0x48, 0x69, 0x04] : List Byte) = encode (.send [0x48, 0x69]) ++ [0x04] := by decide

theorem witness_NeedMoreExactlyOnProperPrefixes :
    decode [0x11, 0x02, 0x48] = .needMore ∧ decode [] = .needMore ∧
    (Instr.send [0x48, 0x69]).wellFormed = true ∧ ([0x69] : List Byte) ≠ [] ∧
    encode (.send [0x48, 0x69]) = [0x11, 0x02, 0x48] ++ [0x69] := by decide

theorem witness_IllegalOpcodeExactlyOutsideTheSix :
    ({ reset 8 with cmdIn := [0x12] } : State).hostIsNext ∧ ({ reset 8 with cmdIn := [0x12] } : State).cmdIn.head? = some 0x12 ∧
    (0x12 : Byte) ∉ ([0x01, 0x02, 0x03, 0x04, 0x10, 0x11] : List Byte) := ⟨.inl rfl, rfl, by decide⟩

theorem witness_TruncatedCommandFaults :
    let s : State := { reset 8 with cmdIn := [0x11], turns := [.host, .tick] };
    s.hostIsNext ∧ s.cmdIn ≠ [] ∧ (Instr.send [0x41]).wellFormed = true ∧ ([0x01, 0x41] : List Byte) ≠ [] ∧
      encode (.send [0x41]) = s.cmdIn ++ [0x01, 0x41] := ⟨.inr rfl, by decide, by decide, by decide, by decide⟩

theorem witness_CommandFieldsAreBitSlices :
    (List.replicate 255 (0x41 : Byte)).length ≤ 255 ∧ 254 < (List.replicate 255 (0x41 : Byte)).length := by
  rw [List.length_replicate]; omega

theorem witness_StepRunsTheDecodedCommand :
    (let s : State := { reset 8 with cmdIn := [0x04, 0x03] };
      s.hostIsNext ∧ decode s.cmdIn = .ok .capture [0x03]) ∧
    (let s : State := { reset 8 with cmdIn := [0x11, 0x01, 0x41], turns := [.host, .txe] };
      s.hostIsNext ∧ decode s.cmdIn = .ok (.send [0x41]) []) :=
  ⟨⟨.inl rfl, by decide⟩, ⟨.inr rfl, by decide⟩⟩

theorem witness_StepTakesExactlyEnabledEvents :
    (let s : State := { wrapped with turns := [.tick, .host] };
      s.turns = .tick :: [.host] ∧ s.trun = true ∧ s.tie = true ∧ s.gie = true) ∧
    (let s : State := { off with turns := [.tick] };
      s.turns = .tick :: [] ∧ ¬ (s.trun = true ∧ s.tie = true ∧ s.gie = true)) ∧
    (let s : State := { wrapped with turns := [.txe] };
      s.turns = .txe :: [] ∧ s.gie = true ∧ s.drie = true) ∧
    (let s : State := { idle with turns := [.txe] };
      s.turns = .txe :: [] ∧ ¬ (s.gie = true ∧ s.drie = true)) := by decide

theorem witness_EmptyStreamLeavesTheBlockIdle :
    (reset 8).hostIsNext ∧ (reset 8).cmdIn = [] := ⟨.inl rfl, rfl⟩

theorem witness_PlacedTableWordRunsNext :
    decodeTableWord 8 0x01 = some .tinit ∧ decodeTableWord 40 0xFFFFFFFF02 = some (.tadd 0xFFFF 0xFFFF) ∧
    decodeTableWord 8 0x03 = some .rdclk ∧ decodeTableWord 8 0x04 = some .capture ∧
    decodeTableWord 40 0x0001C20010 = some (.sinit 115200) ∧ decodeTableWord 16 0x0011 = some (.send []) := by decide

theorem witness_TinitSetsTheTimerBits : off.trun = false ∧ wrapped.trun = true := by decide

theorem witness_TaddFillsTheFirstEmptySlot :
    ((reset 8).tasks[(0 : Fin 10)] = none ∧ ∀ j : Fin 10, j < 0 → (reset 8).tasks[j] ≠ none) ∧
    ((live 0 lastEmpty).tasks[(9 : Fin 10)] = none ∧ ∀ j : Fin 10, j < 9 → (live 0 lastEmpty).tasks[j] ≠ none) ∧
    (∀ i : Fin 10, (live 0 fullTable).tasks[i] ≠ none) := by decide

theorem witness_SecondCaptureReturnsOnlyBackgroundTasks : ∃ t, exec .capture wrapped = .next t := ⟨_, rfl⟩

theorem witness_BackgroundTaskIsFixedAndAlwaysCaptured :
    wrapped.Inv ∧ wrapped.tasks[(1 : Fin 10)] = some ⟨0x00B2, 0, 0, true⟩ ∧ (⟨0x00B2, 0, 0, true⟩ : Task).period = 0 ∧
    ∃ t, step wrapped = .next t := ⟨wrapped_inv, by decide, rfl, _, rfl⟩

/-- A due slot and a slot not due at a tick, a capture, and another stimulus. -/
theorem witness_OnlyTickSetsAndOnlyCaptureClearsReady :
    (∃ t, stimulate (.event .tick) wrapped = some (.next t)) ∧
    (∃ t, stimulate (.cmd .capture) wrapped = some (.next t)) ∧
    (∃ t, stimulate (.event .drain) wrapped = some (.next t)) ∧
    wrapped.tasks[(0 : Fin 10)] = some ⟨0x00A1, 5, 5, false⟩ ∧ reached (wrapped.clock + 1) 5 = true ∧
    wrapped.tasks[(2 : Fin 10)] = some ⟨0x00C3, 7, 14, true⟩ ∧ reached (wrapped.clock + 1) 14 = false ∧
    (5 : U16) ≠ 0 ∧ (7 : U16) ≠ 0 :=
  ⟨⟨_, rfl⟩, ⟨_, rfl⟩, ⟨_, rfl⟩, by decide, by decide, by decide, by decide, by decide, by decide⟩

theorem witness_PeriodBoundOfTheComparator :
    (1 ≤ (0x0001 : U16).toNat ∧ (0x0001 : U16).toNat ≤ 0x8001) ∧
    (1 ≤ (0x8001 : U16).toNat ∧ (0x8001 : U16).toNat ≤ 0x8001 ∧ 1 ≤ 0x8000 ∧ 0x8000 < (0x8001 : U16).toNat) ∧
    0x8002 ≤ (0x8002 : U16).toNat ∧ 0x8002 ≤ (0xFFFF : U16).toNat := by decide

/-- `d = 1`, and `d = PERIOD = 0x8001`. -/
theorem witness_UndispatchedTaskStaysOnItsGrid :
    (eventEnabled .tick wrapped = true ∧ wrapped.tasks[(0 : Fin 10)] = some ⟨0x00A1, 5, 5, false⟩ ∧
      1 ≤ (5 : U16).toNat ∧ (5 : U16).toNat ≤ 0x8001 ∧ ((5 : U16) - wrapped.clock).toNat = 1) ∧
    (let s := live 0 (table (some ⟨0x0001, 0x8001, 0x8001, false⟩) none none);
      eventEnabled .tick s = true ∧ s.tasks[(0 : Fin 10)] = some ⟨0x0001, 0x8001, 0x8001, false⟩ ∧
        (0x8001 : U16).toNat ≤ 0x8001 ∧ ((0x8001 : U16) - s.clock).toNat = 0x8001) := by decide

/-- Ticks with a `CAPTURE` between, over a due slot (`d = 1`), and the empty trace at `d = PERIOD = 0x8001`. -/
theorem witness_FiringGridIsIndependentOfDispatch :
    (eventEnabled .tick wrapped = true ∧ wrapped.tasks[(0 : Fin 10)] = some ⟨0x00A1, 5, 5, false⟩ ∧
      1 ≤ (5 : U16).toNat ∧ (5 : U16).toNat ≤ 0x8001 ∧ ((5 : U16) - wrapped.clock).toNat = 1 ∧
      ∃ t, runTrace [.event .tick, .cmd .capture, .event .drain, .event .tick] wrapped = some (.next t)) ∧
    (let s := live 0 (table (some ⟨0x0001, 0x8001, 0x8001, false⟩) none none);
      eventEnabled .tick s = true ∧ s.tasks[(0 : Fin 10)] = some ⟨0x0001, 0x8001, 0x8001, false⟩ ∧
        (0x8001 : U16).toNat ≤ 0x8001 ∧ ((0x8001 : U16) - s.clock).toNat = 0x8001 ∧
        ∃ t, runTrace [] s = some (.next t)) :=
  ⟨⟨by decide, by decide, by decide, by decide, by decide, _, rfl⟩, ⟨by decide, by decide, by decide, by decide, _, rfl⟩⟩

/-- The two cases of the first firing: the next tick (V-TADD-3), and `p - c` ticks later (V-TADD-1), the latter
also before `TINIT` (V-TINIT-4). -/
theorem witness_FirstFiringAfterRegistration :
    (let s := live 500 lastEmpty;
      eventEnabled .tick s = true ∧ s.tasks[(9 : Fin 10)] = none ∧ (∀ j : Fin 10, j < 9 → s.tasks[j] ≠ none) ∧
        1 ≤ (100 : U16).toNat ∧ (100 : U16).toNat ≤ 0x8001 ∧ reached (s.clock + 1) 100 = true) ∧
    (let s := live 0 (table none none none);
      eventEnabled .tick s = true ∧ s.tasks[(0 : Fin 10)] = none ∧ (∀ j : Fin 10, j < 0 → s.tasks[j] ≠ none) ∧
        reached (s.clock + 1) 100 = false) ∧
    (let s := reset 8;
      s.trun = false ∧ s.tasks[(0 : Fin 10)] = none ∧ (∀ j : Fin 10, j < 0 → s.tasks[j] ≠ none) ∧
        1 ≤ (0x8001 : U16).toNat ∧ (0x8001 : U16).toNat ≤ 0x8001 ∧ reached (s.clock + 1) 0x8001 = false) := by decide

theorem witness_OnlyTheTickWritesTheClock :
    (∃ t, step { wrapped with turns := [.tick] } = .next t) ∧ (∃ t, step { wrapped with cmdIn := [0x03] } = .next t) :=
  ⟨⟨_, rfl⟩, ⟨_, rfl⟩⟩

/-- An occupied slot, and a slot a `TADD` fills. -/
theorem witness_TaskTableOnlyGrows :
    ∃ t, step { wrapped with cmdIn := [0x02, 0xA1, 0x00, 0x64, 0x00] } = .next t ∧
      wrapped.tasks[(0 : Fin 10)] = some ⟨0x00A1, 5, 5, false⟩ ∧
      wrapped.tasks[(3 : Fin 10)] = none ∧ t.tasks[(3 : Fin 10)] = some ⟨0x00A1, 100, 100, false⟩ :=
  ⟨_, rfl, by decide, by decide, by decide⟩

theorem witness_SinitRecordsTheBaudRate : (reset 8).sen = false ∧ wrapped.sen = true := by decide

theorem witness_SendStoresWhatFits :
    (reset 8).sen = false ∧
    (wrapped.sen = true ∧ wrapped.head < wrapped.cfg.txcap ∧ wrapped.tail < wrapped.cfg.txcap ∧
      ringFree wrapped.cfg.txcap wrapped.head wrapped.tail = 4) ∧
    (full.sen = true ∧ full.head < full.cfg.txcap ∧ full.tail < full.cfg.txcap ∧
      ringFree full.cfg.txcap full.head full.tail = 0) := by decide

theorem witness_DrainMovesOneByteOrDisarms :
    armedEmpty.head = armedEmpty.tail ∧
    (wrapped.head ≠ wrapped.tail ∧ wrapped.tail < wrapped.cfg.txcap ∧ wrapped.txbuf.read wrapped.tail = some 0x61) := by
  decide

theorem witness_TransmitIsFirstInFirstOut :
    wrapped.Inv ∧ ∃ t, runTrace [.event .drain, .cmd (.send [0x64])] wrapped = some (.next t) :=
  ⟨wrapped_inv, _, rfl⟩

/-- No byte held, and `TXCAP - 1` bytes held. -/
theorem witness_DrainsEmptyTheRingAndDisarm :
    (armedEmpty.Inv ∧ armedEmpty.gie = true ∧ armedEmpty.drie = true ∧
      ringCount armedEmpty.cfg.txcap armedEmpty.head armedEmpty.tail = 0) ∧
    (full.Inv ∧ full.gie = true ∧ full.drie = true ∧ ringCount full.cfg.txcap full.head full.tail = 7) :=
  ⟨⟨armedEmpty_inv, rfl, rfl, rfl⟩, ⟨full_inv, rfl, rfl, rfl⟩⟩

/-- The longest text (V-SEND-3) and the empty one. -/
theorem witness_SendThenDrainRoundTrip :
    idle.Inv ∧ idle.sen = true ∧ idle.gie = true ∧ idle.head = idle.tail ∧
    ([0x31, 0x32, 0x33, 0x34, 0x35, 0x36, 0x37] : List Byte).length = idle.cfg.txcap - 1 ∧
    ([] : List Byte).length ≤ idle.cfg.txcap - 1 := ⟨idle_inv, rfl, rfl, rfl, rfl, by decide⟩

/-- A full buffer (V-SEND-4) and one with four free cells (V-SEND-6). -/
theorem witness_OverflowKeepsTheFirstFreeBytes :
    (full.Inv ∧ full.sen = true ∧ ringFree full.cfg.txcap full.head full.tail < ([0x38] : List Byte).length) ∧
    (wrapped.Inv ∧ wrapped.sen = true ∧
      ringFree wrapped.cfg.txcap wrapped.head wrapped.tail < (List.replicate 5 (0x55 : Byte)).length) :=
  ⟨⟨full_inv, rfl, by decide⟩, ⟨wrapped_inv, rfl, by decide⟩⟩

theorem witness_EmptySendCostsOneIdleDrain :
    (full.Inv ∧ full.sen = true ∧ nexti full.cfg.txcap full.head = full.tail) ∧
    (idle.Inv ∧ idle.sen = true ∧ idle.gie = true ∧ idle.head = idle.tail ∧ idle.drie = false) :=
  ⟨⟨full_inv, rfl, rfl⟩, ⟨idle_inv, rfl, rfl, rfl, rfl⟩⟩

theorem witness_LongTextActsAsItsFirst255Bytes : wrapped.Inv ∧ 255 < (List.replicate 300 (0x41 : Byte)).length :=
  ⟨wrapped_inv, by rw [List.length_replicate]; omega⟩

theorem witness_DrieSetBySendClearedByIdleDrain :
    (∃ t, step { idle with cmdIn := [0x11, 0x00] } = .next t ∧ idle.drie = false ∧ t.drie = true) ∧
    (∃ t, step { armedEmpty with turns := [.txe] } = .next t ∧ armedEmpty.drie = true ∧ t.drie = false) :=
  ⟨⟨_, rfl, rfl, rfl⟩, ⟨_, rfl, rfl, rfl⟩⟩

theorem witness_EveryStepMasksAndRestores :
    (∃ t, atomic (fun u => .next (u.setDrie false)) wrapped = .next t) ∧
    (∃ t, stimulate (.cmd .tinit) off = some (.next t)) ∧ (∃ t, stimulate (.event .tick) wrapped = some (.next t)) :=
  ⟨⟨_, rfl⟩, ⟨_, rfl⟩, ⟨_, rfl⟩⟩

theorem witness_NoEventBeforeTinit : (off.Inv ∧ off.trun = false) ∧ (wrapped.Inv ∧ wrapped.trun = true) :=
  ⟨⟨off_inv, rfl⟩, ⟨wrapped_inv, rfl⟩⟩

theorem witness_IndependentStimuliCommute :
    eventEnabled .tick wrapped = true ∧ eventEnabled .drain wrapped = true := by decide

theorem witness_StimuliKeepToTheirWriteSets :
    (∃ t, stimulate (.cmd .tinit) off = some (.next t)) ∧
    (∃ t, stimulate (.cmd (.tadd 0x00A1 100)) wrapped = some (.next t)) ∧
    (∃ t, stimulate (.cmd .rdclk) wrapped = some (.next t)) ∧
    (∃ t, stimulate (.cmd .capture) wrapped = some (.next t)) ∧
    (∃ t, stimulate (.cmd (.sinit 9600)) (reset 8) = some (.next t)) ∧
    (∃ t, stimulate (.cmd (.send [0x41])) wrapped = some (.next t)) ∧
    (∃ t, stimulate (.event .tick) wrapped = some (.next t)) ∧
    (∃ t, stimulate (.event .drain) wrapped = some (.next t)) :=
  ⟨⟨_, rfl⟩, ⟨_, rfl⟩, ⟨_, rfl⟩, ⟨_, rfl⟩, ⟨_, rfl⟩, ⟨_, rfl⟩, ⟨_, rfl⟩, ⟨_, rfl⟩⟩

theorem witness_ControlBitsAreSetOnceAndKept :
    (∃ t, step { off with cmdIn := [0x01] } = .next t ∧ (t.trun, t.tie, t.gie) ≠ (off.trun, off.tie, off.gie)) ∧
    (∃ t, step { reset 8 with cmdIn := [0x10, 0x80, 0x25, 0x00, 0x00] } = .next t ∧
      (t.sen, t.baud) ≠ ((reset 8).sen, (reset 8).baud)) ∧
    (∃ t, step wrapped = .next t ∧ wrapped.trun = true ∧ wrapped.tie = true ∧ wrapped.gie = true ∧ wrapped.sen = true) :=
  ⟨⟨_, rfl, by decide⟩, ⟨_, rfl, by decide⟩, ⟨_, rfl, rfl, rfl, rfl, rfl⟩⟩

/-- A response of 21 bytes (V-CAP-6's table), a `RDCLK`, and a drain that transmits. -/
theorem witness_OutputTracesOnlyGrow :
    (∃ t, step { live 5 fullTable with cmdIn := [0x04] } = .next t ∧ t.resp.length = 21) ∧
    (∃ t, step { wrapped with cmdIn := [0x03] } = .next t ∧ t.resp.length = 2) ∧
    (∃ t, step { wrapped with turns := [.txe] } = .next t ∧ t.txout = [0x61]) :=
  ⟨⟨_, rfl, rfl⟩, ⟨_, rfl, rfl⟩, ⟨_, rfl, rfl⟩⟩

theorem witness_RefusedExactlyAsListed :
    exec .tinit wrapped = .refused .tinitRepeated ∧ exec (.sinit 9600) wrapped = .refused .sinitRepeated ∧
    exec (.send [0x41]) (reset 8) = .refused .sendBeforeSinit := ⟨rfl, rfl, rfl⟩

theorem witness_OnlyTheDecoderFaults :
    off.Inv ∧ ({ off with turns := [.tick], cmdIn := [0x07] } : State).turns ≠ [] ∧
    ∃ s : State, s.Inv ∧ ∃ f, step s = .fault f :=
  ⟨off_inv, by decide, { off with cmdIn := [0x07] },
    ⟨off_inv.1, off_inv.2, off_inv.3, off_inv.4, off_inv.5, off_inv.6, off_inv.7, off_inv.8, off_inv.9, off_inv.10,
      off_inv.11⟩, _, rfl⟩

theorem witness_EveryStepKeepsTheInvariants :
    ∃ s t : State, s.Inv ∧ step s = .next t ∧ t.tail = 7 ∧ t.txout = [0x61] :=
  ⟨{ wrapped with turns := [.txe] }, _,
    ⟨wrapped_inv.1, wrapped_inv.2, wrapped_inv.3, wrapped_inv.4, wrapped_inv.5, wrapped_inv.6, wrapped_inv.7,
      wrapped_inv.8, wrapped_inv.9, wrapped_inv.10, wrapped_inv.11⟩, rfl, rfl, rfl⟩

/-- V-DELAY-2, and a delay of 1 that a tick ends. -/
theorem witness_DelayNeverReturnsEarly :
    (∃ t, delay 0 [[]] wrapped = .returned t) ∧ (∃ t, delay 1 [[], [.tick]] wrapped = .returned t) :=
  ⟨⟨_, rfl⟩, ⟨_, rfl⟩⟩

theorem witness_DelayPolledEveryTickReturnsOnTime : eventEnabled .tick wrapped = true := by decide

theorem witness_DelayHangsBeforeTinit : off.Inv ∧ off.trun = false ∧ (1 : U16) ≠ 0 := ⟨off_inv, rfl, by decide⟩

end Sys2Proof.Tests
end

/-! PROOFS. The family of spec/10_state.md: what each stimulus does to the state, what a step can be, and the
statements on invariants, write sets, control bits, traces and reset. -/

namespace Sys2Proof.Machine

/-! ### What each command and event does, its critical section resolved -/

theorem execTinit_eq_next_iff {s t : State} :
    execTinit s = .next t ↔ s.trun = false ∧ t = ((s.setTrun true).setTie true).setGie true := by
  unfold execTinit
  rw [atomic_eq_next_iff]
  cases h : s.trun <;> simp [enterCritical, leaveCritical, h, State.setTrun, State.setTie, State.setGie]

theorem execTadd_eq (action period : U16) (s : State) :
    execTadd action period s = .next (s.setTasks (register s.tasks (newTask action period))) := rfl

theorem execRdclk_eq (s : State) : execRdclk s = .next (s.setResp (s.resp ++ clockResponse s.clock)) := rfl

theorem execCapture_eq (s : State) :
    execCapture s = .next ((s.setTasks (scanSlots captureSlot s.tasks)).setResp
      (s.resp ++ captureResponse (snapshot s.tasks))) := rfl

theorem execSinit_eq_next_iff {baud : U32} {s t : State} :
    execSinit baud s = .next t ↔ s.sen = false ∧ t = (s.setSen true).setBaud baud := by
  unfold execSinit
  rw [atomic_eq_next_iff]
  cases h : s.sen <;> simp [enterCritical, leaveCritical, h, State.setSen, State.setBaud, State.setGie]

theorem execTick_eq (s : State) :
    execTick s = .next ((s.setClock (inc16 s.clock)).setTasks (scanSlots (tickSlot (inc16 s.clock)) s.tasks)) := rfl

/-- The append loop writes `TXBUF` and `HEAD` only. -/
theorem appendAll_frame {text : List Byte} {s u : State} (h : appendAll text s = .ok u) :
    ∃ m k, u = (s.setTxbuf m).setHead k := by
  induction text generalizing s with
  | nil =>
    cases h
    exact ⟨u.txbuf, u.head, rfl⟩
  | cons b bs ih =>
    unfold appendAll at h
    split at h
    · cases h
      exact ⟨u.txbuf, u.head, rfl⟩
    · split at h
      · rename_i t ht
        obtain ⟨-, rfl⟩ := append_eq_ok_iff.1 ht
        obtain ⟨m, k, rfl⟩ := ih h
        exact ⟨m, k, rfl⟩
      · cases h

theorem append_setGie (s : State) (g : Bool) (b : Byte) :
    append (s.setGie g) b = (append s b).map (State.setGie · g) := by
  by_cases h : s.head < s.cfg.txcap
  · have hs : append s b = .ok _ := append_eq_ok_iff.2 ⟨h, rfl⟩
    have hg : append (s.setGie g) b = .ok _ := append_eq_ok_iff.2 ⟨h, rfl⟩
    rw [hs, hg]
    rfl
  · simp [append, memWrite, appendIndex, h, Except.map]

/-- The append loop does not read `GIE`. -/
theorem appendAll_setGie (text : List Byte) (s : State) (g : Bool) :
    appendAll text (s.setGie g) = (appendAll text s).map (State.setGie · g) := by
  induction text generalizing s with
  | nil => rfl
  | cons b bs ih =>
    have hf : ringFull (s.setGie g) = ringFull s := rfl
    simp only [appendAll, hf, append_setGie]
    split
    · rfl
    · cases append s b with
      | ok t => exact ih t
      | error f => rfl

theorem execSend_eq_next_iff {text : List Byte} {s t : State} :
    execSend text s = .next t ↔ s.sen = true ∧ ∃ u, appendAll text s = .ok u ∧ t = u.setDrie true := by
  unfold execSend
  rw [atomic_eq_next_iff]
  cases hs : s.sen with
  | false => simp [enterCritical, hs]
  | true =>
    simp only [enterCritical, State.setGie_sen, hs, if_true, appendAll_setGie]
    cases hu : appendAll text s with
    | error f => simp [Except.map]
    | ok u =>
      obtain ⟨m, k, rfl⟩ := appendAll_frame hu
      simp [Except.map, leaveCritical, State.setGie, State.setDrie, State.setTxbuf, State.setHead]

/-- The byte a drain moves is the cell at `TAIL` (R103). -/
theorem execDrain_eq_next_iff {s t : State} :
    execDrain s = .next t ↔ (s.head = s.tail ∧ t = s.setDrie false) ∨
      (s.head ≠ s.tail ∧ s.tail < s.cfg.txcap ∧ ∃ b, s.txbuf.read s.tail = some b ∧
        t = (s.setTail (nexti s.cfg.txcap s.tail)).setTxout (s.txout ++ [b])) := by
  unfold execDrain
  rw [atomic_eq_next_iff]
  by_cases he : s.head = s.tail
  · simp [ringEmpty, enterCritical, leaveCritical, he, State.setDrie, State.setGie]
  · simp only [ringEmpty, enterCritical, State.setGie_head, State.setGie_tail, beq_iff_eq, he, if_false]
    cases hr : remove (s.setGie false) with
    | ok p =>
      obtain ⟨b, u⟩ := p
      obtain ⟨ht, hb, rfl⟩ := remove_eq_ok_iff.1 hr
      simp_all [leaveCritical, txwrite, State.setTail, State.setTxout, State.setGie]
    | error f =>
      have hno : ¬ ∃ b, s.tail < s.cfg.txcap ∧ s.txbuf.read s.tail = some b := by
        rintro ⟨b, ht, hb⟩
        have hok := remove_eq_ok_iff (s := s.setGie false).2 ⟨ht, hb, rfl⟩
        rw [hr] at hok
        cases hok
      simp_all

end Sys2Proof.Machine

/-! ### What a stimulus does, and what a step can be -/

namespace Sys2Proof.Machine

/-- The next states of the six commands and the two events, each as the updates it makes (R24). -/
inductive Effect : Stimulus → State → State → Prop
  | tinit {s : State} (htrun : s.trun = false) :
      Effect (.cmd .tinit) s (((s.setTrun true).setTie true).setGie true)
  | tadd {s : State} {action period : U16} :
      Effect (.cmd (.tadd action period)) s (s.setTasks (register s.tasks (newTask action period)))
  | rdclk {s : State} :
      Effect (.cmd .rdclk) s (s.setResp (s.resp ++ clockResponse s.clock))
  | capture {s : State} :
      Effect (.cmd .capture) s ((s.setTasks (scanSlots captureSlot s.tasks)).setResp
        (s.resp ++ captureResponse (snapshot s.tasks)))
  | sinit {s : State} {baud : U32} (hsen : s.sen = false) :
      Effect (.cmd (.sinit baud)) s ((s.setSen true).setBaud baud)
  | send {s : State} {text : List Byte} {m : Memory} {k : Nat} (hsen : s.sen = true)
      (happend : appendAll text s = .ok ((s.setTxbuf m).setHead k)) :
      Effect (.cmd (.send text)) s (((s.setTxbuf m).setHead k).setDrie true)
  | tick {s : State} (henabled : eventEnabled .tick s = true) :
      Effect (.event .tick) s
        ((s.setClock (inc16 s.clock)).setTasks (scanSlots (tickSlot (inc16 s.clock)) s.tasks))
  | drainIdle {s : State} (henabled : eventEnabled .drain s = true) (hempty : s.head = s.tail) :
      Effect (.event .drain) s (s.setDrie false)
  | drainByte {s : State} {b : Byte} (henabled : eventEnabled .drain s = true) (hheld : s.head ≠ s.tail)
      (htail : s.tail < s.cfg.txcap) (hread : s.txbuf.read s.tail = some b) :
      Effect (.event .drain) s ((s.setTail (nexti s.cfg.txcap s.tail)).setTxout (s.txout ++ [b]))

theorem exec_effect {i : Instr} {s t : State} (h : exec i s = .next t) : Effect (.cmd i) s t := by
  cases i with
  | tinit =>
    obtain ⟨htrun, rfl⟩ := execTinit_eq_next_iff.1 h
    exact .tinit htrun
  | tadd action period =>
    cases (execTadd_eq action period s).symm.trans h
    exact .tadd
  | rdclk =>
    cases (execRdclk_eq s).symm.trans h
    exact .rdclk
  | capture =>
    cases (execCapture_eq s).symm.trans h
    exact .capture
  | sinit baud =>
    obtain ⟨hsen, rfl⟩ := execSinit_eq_next_iff.1 h
    exact .sinit hsen
  | send text =>
    obtain ⟨hsen, u, hu, rfl⟩ := execSend_eq_next_iff.1 h
    obtain ⟨m, k, rfl⟩ := appendAll_frame hu
    exact .send hsen hu

theorem execEvent_effect {e : Event} {s t : State} (he : eventEnabled e s = true) (h : execEvent e s = .next t) :
    Effect (.event e) s t := by
  cases e with
  | tick =>
    cases (execTick_eq s).symm.trans h
    exact .tick he
  | drain =>
    rcases execDrain_eq_next_iff.1 h with ⟨hempty, rfl⟩ | ⟨hheld, htail, b, hread, rfl⟩
    · exact .drainIdle he hempty
    · exact .drainByte he hheld htail hread

theorem stimulate_effect {x : Stimulus} {s t : State} (h : stimulate x s = some (.next t)) : Effect x s t := by
  cases x with
  | cmd i => exact exec_effect (by simpa [stimulate] using h)
  | event e =>
    simp only [stimulate] at h
    split at h
    · exact execEvent_effect (by assumption) (by simpa using h)
    · cases h

/-- The stimulus the agent at turn presents in `s`, and the state it acts in: its turn, and the host's
command, taken off the input streams (R2). -/
inductive Presents (s : State) : Stimulus → State → Prop
  | cmd {i : Instr} {rest : List Byte} (hhost : s.hostIsNext) (hdecode : decode s.cmdIn = .ok i rest) :
      Presents s (.cmd i) ((afterTurn s).setCmdIn rest)
  | tick (hturn : s.turns.head? = some .tick) : Presents s (.event .tick) (afterTurn s)
  | drain (hturn : s.turns.head? = some .txe) : Presents s (.event .drain) (afterTurn s)

/-- Presenting a stimulus touches the two input streams only. -/
theorem Presents.eq_set {s u : State} {x : Stimulus} (h : Presents s x u) :
    ∃ turns cmdIn, u = (s.setTurns turns).setCmdIn cmdIn := by
  cases h with
  | cmd => exact ⟨_, _, rfl⟩
  | tick => exact ⟨s.turns.tail, s.cmdIn, rfl⟩
  | drain => exact ⟨s.turns.tail, s.cmdIn, rfl⟩

theorem Presents.host {s u : State} {i : Instr} (h : Presents s (.cmd i) u) :
    s.hostIsNext ∧ ∃ rest, decode s.cmdIn = .ok i rest := by
  cases h with
  | cmd hhost hdecode => exact ⟨hhost, _, hdecode⟩

theorem Presents.txe_is_next {s u : State} (h : Presents s (.event .drain) u) : s.turns.head? = some .txe := by
  cases h with
  | drain hturn => exact hturn

theorem hostIsNext_iff (s : State) : s.hostIsNext ↔ s.turns.head?.getD .host = .host := by
  unfold State.hostIsNext
  cases s.turns <;> simp

theorem not_tick_of_hostIsNext {s : State} (h : s.hostIsNext) : s.turns.head? ≠ some .tick := by
  intro ht
  simp [hostIsNext_iff, ht] at h

theorem eventTurn_effect {e : Event} {s t : State} (h : eventTurn e s = .next t) :
    (t = s ∧ eventEnabled e s = false) ∨ Effect (.event e) s t := by
  rw [eventTurn_eq] at h
  split at h
  · exact .inr (execEvent_effect (by assumption) h)
  · rename_i hoff
    cases h
    exact .inl ⟨rfl, Bool.eq_false_of_not_eq_true hoff⟩

/-- All a step that answers a next state can be: an idle turn, which no enabled tick is, or the effect of
the stimulus presented. -/
theorem step_effect {s t : State} (h : step s = .next t) :
    (t = afterTurn s ∧ ¬ (s.turns.head? = some .tick ∧ eventEnabled .tick s = true)) ∨
    ∃ x u, Presents s x u ∧ Effect x u t := by
  rw [step_eq] at h
  cases hturn : s.turns.head?.getD .host with
  | host =>
    have hhost := (hostIsNext_iff s).2 hturn
    rw [hturn] at h
    rcases hostTurn_eq_next h with ⟨-, rfl⟩ | ⟨i, rest, hd, he⟩
    · exact .inl ⟨rfl, fun hc => not_tick_of_hostIsNext hhost hc.1⟩
    · exact .inr ⟨_, _, .cmd hhost hd, exec_effect he⟩
  | tick =>
    rw [hturn] at h
    rcases eventTurn_effect h with ⟨rfl, he⟩ | he
    · exact .inl ⟨rfl, fun hc => by simp [show eventEnabled .tick s = false from he] at hc⟩
    · exact .inr ⟨_, _, .tick (by simpa [Option.getD_eq_iff] using hturn), he⟩
  | txe =>
    have ht : s.turns.head? = some .txe := by simpa [Option.getD_eq_iff] using hturn
    rw [hturn] at h
    rcases eventTurn_effect h with ⟨rfl, -⟩ | he
    · exact .inl ⟨rfl, fun hc => by simp [ht] at hc⟩
    · exact .inr ⟨_, _, .drain ht, he⟩

end Sys2Proof.Machine

/-! ### The clock, the control bits and the parameters under one stimulus -/

namespace Sys2Proof.Machine

/-- Only the tick writes `CLOCK` (R11). -/
theorem Effect.clock_eq {x : Stimulus} {s t : State} (h : Effect x s t) :
    t.clock = if x = .event .tick then s.clock + 1 else s.clock := by
  cases h <;> simp [inc16, add16]

/-- Only `TINIT` writes `TRUN`, `TIE` and `GIE`, and it sets them (R16). -/
theorem Effect.timer_bits {x : Stimulus} {s t : State} (h : Effect x s t) :
    (t.trun, t.tie, t.gie) = (s.trun, s.tie, s.gie) ∨
    (x = .cmd .tinit ∧ t.trun = true ∧ t.tie = true ∧ t.gie = true) := by
  cases h with
  | tinit => exact .inr ⟨rfl, rfl, rfl, rfl⟩
  | _ => exact .inl rfl

/-- Only `SINIT` writes `SEN` and `BAUD`, and only when `SEN = 0` (R17). -/
theorem Effect.serial_bits {x : Stimulus} {s t : State} (h : Effect x s t) :
    (t.sen, t.baud) = (s.sen, s.baud) ∨ ∃ baud, x = .cmd (.sinit baud) ∧ s.sen = false ∧ t.sen = true := by
  cases h with
  | sinit hsen => exact .inr ⟨_, rfl, hsen, rfl⟩
  | _ => exact .inl rfl

theorem Effect.cfg_eq {x : Stimulus} {s t : State} (h : Effect x s t) : t.cfg = s.cfg := by
  cases h <;> rfl

/-- Only `SEND` sets `DRIE` (R20). -/
theorem Effect.send_of_drie_set {x : Stimulus} {s t : State} (h : Effect x s t) (hs : s.drie = false)
    (ht : t.drie = true) : ∃ text, x = .cmd (.send text) := by
  cases h with
  | send => exact ⟨_, rfl⟩
  | _ => simp_all

/-- Only a drain that finds the buffer empty clears `DRIE` (R20). -/
theorem Effect.idle_drain_of_drie_cleared {x : Stimulus} {s t : State} (h : Effect x s t) (hs : s.drie = true)
    (ht : t.drie = false) : x = .event .drain ∧ s.gie = true ∧ s.head = s.tail := by
  cases h with
  | drainIdle henabled hempty => exact ⟨rfl, by simp_all [eventEnabled, drainEnabled], hempty⟩
  | _ => simp_all

/-! ### The task table -/

@[simp] theorem captureSlot_none : captureSlot none = none := rfl

/-- A capture leaves a slot as it is but for `READY`, which only a background task keeps (R84). -/
theorem captureSlot_some (τ : Task) : captureSlot (some τ) = some { τ with ready := τ.ready && τ.period == 0 } := by
  obtain ⟨action, period, nextRun, ready⟩ := τ
  cases hp : period == 0 <;> cases ready <;> simp only [captureSlot, bne, hp] <;> rfl

@[simp] theorem tickSlot_none (now : U16) : tickSlot now none = none := rfl

theorem tickSlot_some_of_due {now : U16} {τ : Task} (h : taskDue now τ = true) :
    tickSlot now (some τ) = some { τ with nextRun := add16 now τ.period, ready := true } := by
  simp [tickSlot, h]

theorem tickSlot_some_of_not_due {now : U16} {τ : Task} (h : taskDue now τ = false) :
    tickSlot now (some τ) = some τ := by
  simp [tickSlot, h]

theorem taskDue_of_background (now : U16) {τ : Task} (h : τ.period = 0) : taskDue now τ = false := by
  simp [taskDue, h]

/-- A tick keeps a slot's occupancy, action and period (R83). -/
theorem tickSlot_map_key (now : U16) (slot : Option Task) :
    (tickSlot now slot).map (fun τ => (τ.action, τ.period)) = slot.map fun τ => (τ.action, τ.period) := by
  cases slot with
  | none => rfl
  | some τ =>
    cases h : taskDue now τ
    · rw [tickSlot_some_of_not_due h]
    · rw [tickSlot_some_of_due h]
      rfl

/-- A capture keeps all of a slot but `READY` (R84). -/
theorem captureSlot_map_key (slot : Option Task) :
    (captureSlot slot).map (fun τ => (τ.action, τ.period, τ.nextRun)) =
      slot.map fun τ => (τ.action, τ.period, τ.nextRun) := by
  cases slot with
  | none => rfl
  | some τ =>
    rw [captureSlot_some]
    rfl

/-- A slot after a registration: as before, or empty before and now holding the task registered (R81). -/
theorem getElem_register (v : Vector (Option Task) 10) (τ : Task) (i : Fin 10) :
    (register v τ)[i] = v[i] ∨ (v[i] = none ∧ (register v τ)[i] = some τ) := by
  rcases register_cases v τ with ⟨k, hk, hnone, -, hr⟩ | ⟨-, hr⟩
  · rw [hr]
    by_cases hki : k = i
    · subst hki
      exact .inr ⟨hnone, by simp⟩
    · exact .inl (by simp [Vector.getElem_set_ne _ _ hki])
  · exact .inl (by rw [hr])

/-- All a stimulus can do to the task table (R24). -/
theorem Effect.tasks_cases {x : Stimulus} {s t : State} (h : Effect x s t) :
    t.tasks = s.tasks ∨
    (∃ action period, x = .cmd (.tadd action period) ∧ t.tasks = register s.tasks (newTask action period)) ∨
    t.tasks = scanSlots captureSlot s.tasks ∨
    ∃ now, t.tasks = scanSlots (tickSlot now) s.tasks := by
  cases h with
  | tadd => exact .inr (.inl ⟨_, _, rfl, rfl⟩)
  | capture => exact .inr (.inr (.inl rfl))
  | tick => exact .inr (.inr (.inr ⟨_, rfl⟩))
  | _ => exact .inl rfl

/-- All a stimulus can do to one slot: its occupancy, action and period stay, or a `TADD` fills it while it is
empty (R12, R13). -/
theorem Effect.slot_cases {x : Stimulus} {s t : State} (h : Effect x s t) (i : Fin 10) :
    (t.tasks[i]).map (fun τ => (τ.action, τ.period)) = (s.tasks[i]).map (fun τ => (τ.action, τ.period)) ∨
    ∃ action period, x = .cmd (.tadd action period) ∧ s.tasks[i] = none ∧
      t.tasks[i] = some (newTask action period) := by
  rcases h.tasks_cases with ht | ⟨action, period, hx, ht⟩ | ht | ⟨now, ht⟩
  · exact .inl (by rw [ht])
  · rw [ht]
    rcases getElem_register s.tasks (newTask action period) i with hi | ⟨hnone, hi⟩
    · exact .inl (by rw [hi])
    · exact .inr ⟨action, period, hx, hnone, hi⟩
  · refine .inl ?_
    rw [ht, Fin.getElem_fin, getElem_scanSlots]
    have := congrArg (Option.map fun k : U16 × U16 × U16 => (k.1, k.2.1)) (captureSlot_map_key s.tasks[i])
    simpa [Function.comp_def] using this
  · refine .inl ?_
    rw [ht, Fin.getElem_fin, getElem_scanSlots]
    exact tickSlot_map_key now s.tasks[i]

end Sys2Proof.Machine

/-! ### Every step keeps the invariants -/

namespace Sys2Proof.Machine

/-- A background task is ready, its `NEXT_RUN` 0 (R14 a, R13). -/
def BackgroundFixed (v : Vector (Option Task) 10) : Prop :=
  ∀ (i : Fin 10) (τ : Task), v[i] = some τ → τ.period = 0 → τ.ready = true ∧ τ.nextRun = 0

/-- No occupied slot stands after an empty one (R15). -/
def OccupiedPrefix (v : Vector (Option Task) 10) : Prop :=
  ∀ i j : Fin 10, i < j → v[i] = none → v[j] = none

section
variable {v : Vector (Option Task) 10}

theorem BackgroundFixed.registered (h : BackgroundFixed v) (action period : U16) :
    BackgroundFixed (register v (newTask action period)) := by
  intro i τ hτ hp
  rcases getElem_register v (newTask action period) i with hi | ⟨-, hi⟩
  · exact h i τ (hi ▸ hτ) hp
  · obtain rfl : newTask action period = τ := by simpa [hi] using hτ
    have hperiod : period = 0 := hp
    simp [newTask, initialReady, hperiod]

/-- A change of the slots that leaves background slots alone keeps them fixed. -/
theorem BackgroundFixed.scan (h : BackgroundFixed v) {f : Option Task → Option Task} (hnone : f none = none)
    (hf : ∀ τ τ' : Task, f (some τ) = some τ' → τ'.period = 0 → τ.period = 0 ∧ (τ.ready = true → τ' = τ)) :
    BackgroundFixed (scanSlots f v) := by
  intro i τ' hτ' hp
  rw [Fin.getElem_fin, getElem_scanSlots] at hτ'
  cases hv : v[(i : Nat)] with
  | none => simp [hv, hnone] at hτ'
  | some τ =>
    obtain ⟨hp', hkeep⟩ := hf τ τ' (hv ▸ hτ') hp
    have hτ := h i τ hv hp'
    rwa [hkeep hτ.1]

theorem BackgroundFixed.capture (h : BackgroundFixed v) : BackgroundFixed (scanSlots captureSlot v) := by
  refine h.scan rfl fun τ τ' hτ' hp => ?_
  rw [captureSlot_some, Option.some.injEq] at hτ'
  subst hτ'
  have hp : τ.period = 0 := hp
  exact ⟨hp, fun hready => by cases τ; simp_all⟩

theorem BackgroundFixed.tick (h : BackgroundFixed v) (now : U16) : BackgroundFixed (scanSlots (tickSlot now) v) := by
  refine h.scan rfl fun τ τ' hτ' hp => ?_
  have hkey := tickSlot_map_key now (some τ)
  simp only [hτ', Option.map_some, Option.some.injEq, Prod.mk.injEq] at hkey
  have hperiod : τ.period = 0 := hkey.2 ▸ hp
  rw [tickSlot_some_of_not_due (taskDue_of_background now hperiod), Option.some.injEq] at hτ'
  exact ⟨hperiod, fun _ => hτ'.symm⟩

theorem OccupiedPrefix.registered (h : OccupiedPrefix v) (τ : Task) : OccupiedPrefix (register v τ) := by
  intro i j hij hi
  rcases register_cases v τ with ⟨k, hk, hnone, hbelow, hr⟩ | ⟨-, hr⟩
  · rw [hr] at hi ⊢
    have hki : k ≠ i := by
      rintro rfl
      simp at hi
    have hvi : v[i] = none := by simpa [Vector.getElem_set_ne _ _ hki] using hi
    have hlt : k < i := by
      by_contra hge
      exact hbelow i (by omega) hvi
    have hkj : k ≠ j := by have : (i : Nat) < j := hij; omega
    simpa [Vector.getElem_set_ne _ _ hkj] using h i j hij hvi
  · rw [hr] at hi ⊢
    exact h i j hij hi

/-- A change of the slots that neither fills nor empties one keeps the occupied ones first. -/
theorem OccupiedPrefix.scan (h : OccupiedPrefix v) {f : Option Task → Option Task}
    (hf : ∀ slot, f slot = none ↔ slot = none) : OccupiedPrefix (scanSlots f v) := by
  intro i j hij hi
  rw [Fin.getElem_fin, getElem_scanSlots, hf] at hi ⊢
  exact h i j hij hi

end

theorem captureSlot_eq_none_iff (slot : Option Task) : captureSlot slot = none ↔ slot = none := by
  cases slot <;> simp [captureSlot_some]

theorem tickSlot_eq_none_iff (now : U16) (slot : Option Task) : tickSlot now slot = none ↔ slot = none := by
  simpa using congrArg (· = none) (tickSlot_map_key now slot)

theorem Effect.keeps_background {x : Stimulus} {s t : State} (h : Effect x s t) (hs : BackgroundFixed s.tasks) :
    BackgroundFixed t.tasks := by
  rcases h.tasks_cases with ht | ⟨action, period, -, ht⟩ | ht | ⟨now, ht⟩ <;> rw [ht]
  · exact hs
  · exact hs.registered action period
  · exact hs.capture
  · exact hs.tick now

theorem Effect.keeps_occupied {x : Stimulus} {s t : State} (h : Effect x s t) (hs : OccupiedPrefix s.tasks) :
    OccupiedPrefix t.tasks := by
  rcases h.tasks_cases with ht | ⟨action, period, -, ht⟩ | ht | ⟨now, ht⟩ <;> rw [ht]
  · exact hs
  · exact hs.registered _
  · exact hs.scan captureSlot_eq_none_iff
  · exact hs.scan (tickSlot_eq_none_iff now)

/-- What the append loop of a `SEND` leaves in `TXBUF` and `HEAD` (R101). -/
theorem appendAll_closed {text : List Byte} {s : State} {m : Memory} {k : Nat} (hh : s.head < s.cfg.txcap)
    (ht : s.tail < s.cfg.txcap) (h : appendAll text s = .ok ((s.setTxbuf m).setHead k)) :
    let kept := text.take (ringFree s.cfg.txcap s.head s.tail)
    m = storeText s.cfg.txcap s.txbuf s.head kept ∧ k = (s.head + kept.length) % s.cfg.txcap := by
  have he := Except.ok.inj (h.symm.trans (appendAll_eq text hh ht))
  exact ⟨congrArg State.txbuf he, congrArg State.head he⟩

/-- A `SEND` keeps the invariants: what it stores lies in the ring's free cells and is written (R18, R50). -/
theorem State.Inv.send {s : State} {text : List Byte} {m : Memory} {k : Nat} (hs : s.Inv) (hsen : s.sen = true)
    (h : appendAll text s = .ok ((s.setTxbuf m).setHead k)) : (((s.setTxbuf m).setHead k).setDrie true).Inv := by
  obtain ⟨rfl, rfl⟩ := appendAll_closed hs.head_lt hs.tail_lt h
  have hlen : (text.take (ringFree s.cfg.txcap s.head s.tail)).length ≤ ringFree s.cfg.txcap s.head s.tail := by
    simp
  exact { hs with
    head_lt := Nat.mod_lt _ (Nat.zero_lt_of_lt hs.head_lt)
    mem_wf := storeText_wf _ _ hs.mem_wf
    mem_lt := storeText_mem_lt _ hs.head_lt hs.mem_lt
    held_written := fun hnone => by
      have hheld := heldCells_storeText _ hs.head_lt hs.tail_lt hlen
      rcases List.mem_append.1 (hheld ▸ hnone) with hold | hnew
      · exact hs.held_written hold
      · obtain ⟨b, -, hb⟩ := List.mem_map.1 hnew
        cases hb
    armed := fun _ => ⟨rfl, hsen⟩ }

/-- A drain that moves a byte keeps the invariants: the cells still held were held before (R19, R50). -/
theorem State.Inv.drainByte {s : State} (hs : s.Inv) (hheld : s.head ≠ s.tail) (out : List Byte) :
    ((s.setTail (nexti s.cfg.txcap s.tail)).setTxout out).Inv :=
  { hs with
    tail_lt := nexti_lt (Nat.zero_lt_of_lt hs.tail_lt) s.tail
    held_written := fun hnone => hs.held_written (by
      rw [heldCells_cons hs.head_lt hs.tail_lt hheld]
      exact List.mem_cons_of_mem _ hnone)
    armed := fun _ => hs.armed hheld }

theorem Effect.keeps_inv {x : Stimulus} {s t : State} (h : Effect x s t) (hs : s.Inv) : t.Inv := by
  have hbackground := h.keeps_background hs.background
  have hoccupied := h.keeps_occupied hs.occupied
  cases h with
  | tinit => exact { hs with timer_bits := ⟨rfl, rfl⟩, clock_stopped := nofun }
  | tadd => exact { hs with background := hbackground, occupied := hoccupied }
  | rdclk => exact { hs with }
  | capture => exact { hs with background := hbackground, occupied := hoccupied }
  | sinit => exact { hs with armed := fun hne => ⟨(hs.armed hne).1, rfl⟩ }
  | send hsen happend => exact hs.send hsen happend
  | tick henabled =>
    have htrun : s.trun = true := by simp_all [eventEnabled, tickEnabled]
    exact { hs with
      background := hbackground
      occupied := hoccupied
      clock_stopped := fun hstopped => by simp [htrun] at hstopped }
  | drainIdle _ hempty => exact { hs with armed := fun hne => absurd hempty hne }
  | drainByte _ hheld => exact hs.drainByte hheld _

/-- The invariants do not read the two input streams. -/
theorem State.Inv.set_streams {s : State} (hs : s.Inv) (turns : List Turn) (cmdIn : List Byte) :
    ((s.setTurns turns).setCmdIn cmdIn).Inv :=
  { hs with }

/-- Settles O44: a step is idle or has one stimulus's effect, and every effect keeps the invariants. -/
theorem everyStepKeepsTheInvariants : Obligations.EveryStepKeepsTheInvariants := by
  unfold Obligations.EveryStepKeepsTheInvariants
  intro s t hs hstep
  rcases step_effect hstep with ⟨rfl, -⟩ | ⟨x, u, hpresents, heffect⟩
  · exact hs.set_streams s.turns.tail s.cmdIn
  · obtain ⟨turns, cmdIn, rfl⟩ := hpresents.eq_set
    exact heffect.keeps_inv (hs.set_streams turns cmdIn)

end Sys2Proof.Machine

/-! ### Reset, and what a step can change -/

namespace Sys2Proof.Machine

theorem Config.machine_wf : Config.machine.wf := by
  unfold Config.machine Config.wf
  refine ⟨?_, ?_, ?_⟩ <;> simp only <;> omega

theorem resetWith_tasks (c : Config) (i : Fin 10) : (State.resetWith c).tasks[i] = none := by
  fin_cases i <;> rfl

/-- Reset meets the invariants wherever the parameters are in range. -/
theorem resetWith_inv {c : Config} (hc : c.wf) : (State.resetWith c).Inv where
  cfg_wf := hc
  head_lt := Nat.zero_lt_of_lt hc.1
  tail_lt := Nat.zero_lt_of_lt hc.1
  mem_wf := Memory.reset_wf
  mem_lt := nofun
  held_written := by
    rw [heldCells_eq_nil (Nat.zero_lt_of_lt hc.1) rfl]
    exact List.not_mem_nil
  armed := fun hne => absurd rfl hne
  background := fun i τ hτ => by
    rw [resetWith_tasks] at hτ
    cases hτ
  occupied := fun _ j _ _ => resetWith_tasks c j
  timer_bits := ⟨rfl, rfl⟩
  clock_stopped := fun _ => rfl

/-- Settles O43: the machine's parameters are in range. -/
theorem resetMeetsTheInvariants : Obligations.ResetMeetsTheInvariants := by
  unfold Obligations.ResetMeetsTheInvariants
  exact resetWith_inv Config.machine_wf

/-- Settles O45: the reset state's fields as written, its table read slot by slot. -/
theorem resetValuesAreTheSpecs : Obligations.ResetValuesAreTheSpecs := by
  unfold Obligations.ResetValuesAreTheSpecs
  exact ⟨fun c => ⟨resetWith_tasks c, rfl, rfl, rfl, rfl, rfl, rfl, rfl, rfl, Memory.read_nil, rfl, rfl, rfl⟩,
    rfl, Config.machine_wf⟩

/-- Settles O23: an idle step and every stimulus but the tick leave `CLOCK`; a presented tick is enabled. -/
theorem onlyTheTickWritesTheClock : Obligations.OnlyTheTickWritesTheClock := by
  unfold Obligations.OnlyTheTickWritesTheClock
  intro s t hstep
  rcases step_effect hstep with ⟨rfl, hidle⟩ | ⟨x, u, hpresents, heffect⟩
  · rw [if_neg hidle]
    rfl
  · rw [heffect.clock_eq]
    cases hpresents with
    | cmd hhost => simp [not_tick_of_hostIsNext hhost, afterTurn]
    | tick hturn =>
      cases heffect with
      | tick henabled =>
        have henabled : eventEnabled .tick s = true := henabled
        simp [hturn, henabled, afterTurn]
    | drain hturn => simp [hturn, afterTurn]

/-- Settles O24: a step is idle or has one stimulus's effect on each slot. -/
theorem taskTableOnlyGrows : Obligations.TaskTableOnlyGrows := by
  unfold Obligations.TaskTableOnlyGrows
  intro s t i hstep
  rcases step_effect hstep with ⟨rfl, -⟩ | ⟨x, u, hpresents, heffect⟩
  · exact ⟨fun τ hτ => ⟨τ, hτ, rfl, rfl⟩, fun τ' hnone hτ' => by simp [afterTurn, hnone] at hτ'⟩
  · obtain ⟨turns, cmdIn, rfl⟩ := hpresents.eq_set
    rcases heffect.slot_cases i with hkey | ⟨action, period, rfl, hempty, hfilled⟩
    · refine ⟨fun τ hτ => ?_, fun τ' hnone hτ' => ?_⟩
      · simpa [hτ] using hkey
      · simp [hnone, hτ'] at hkey
    · refine ⟨fun τ hτ => ?_, fun τ' hnone hτ' => ?_⟩
      · have hempty : s.tasks[i] = none := hempty
        rw [hτ] at hempty
        cases hempty
      · obtain rfl : newTask action period = τ' := by simpa [hfilled] using hτ'
        exact hpresents.host

/-- Settles O34: a step is idle or has one stimulus's effect on `DRIE`. -/
theorem drieSetBySendClearedByIdleDrain : Obligations.DrieSetBySendClearedByIdleDrain := by
  unfold Obligations.DrieSetBySendClearedByIdleDrain
  intro s t hstep
  rcases step_effect hstep with ⟨rfl, -⟩ | ⟨x, u, hpresents, heffect⟩
  · exact ⟨fun hs ht => by simp [afterTurn, hs] at ht, fun hs ht => by simp [afterTurn, hs] at ht⟩
  · obtain ⟨turns, cmdIn, rfl⟩ := hpresents.eq_set
    refine ⟨fun hs ht => ?_, fun hs ht => ?_⟩
    · obtain ⟨text, rfl⟩ := heffect.send_of_drie_set hs ht
      exact ⟨hpresents.host.1, text, hpresents.host.2⟩
    · obtain ⟨rfl, hgie, hempty⟩ := heffect.idle_drain_of_drie_cleared hs ht
      exact ⟨hpresents.txe_is_next, hgie, hempty⟩

/-- Settles O39: a step is idle or has one stimulus's effect on the control bits. -/
theorem controlBitsAreSetOnceAndKept : Obligations.ControlBitsAreSetOnceAndKept := by
  unfold Obligations.ControlBitsAreSetOnceAndKept
  intro s t hstep
  rcases step_effect hstep with ⟨rfl, -⟩ | ⟨x, u, hpresents, heffect⟩
  · exact ⟨rfl, id, id, id, fun hne => absurd rfl hne, fun hsen => ⟨hsen, rfl⟩, fun hne => absurd rfl hne⟩
  · obtain ⟨turns, cmdIn, rfl⟩ := hpresents.eq_set
    have htimer : (s.trun = true → t.trun = true) ∧ (s.tie = true → t.tie = true) ∧
        (s.gie = true → t.gie = true) ∧ ((t.trun, t.tie, t.gie) ≠ (s.trun, s.tie, s.gie) → x = .cmd .tinit) := by
      rcases heffect.timer_bits with hkept | ⟨hx, htrun, htie, hgie⟩
      · simp_all
      · simp [hx, htrun, htie, hgie]
    have hserial : (s.sen = true → t.sen = true ∧ t.baud = s.baud) ∧
        ((t.sen, t.baud) ≠ (s.sen, s.baud) → ∃ baud, x = .cmd (.sinit baud)) := by
      rcases heffect.serial_bits with hkept | ⟨baud, hx, hsen, -⟩
      · simp_all
      · have hsen : s.sen = false := hsen
        simp [hx, hsen]
    obtain ⟨htrun, htie, hgie, htinit⟩ := htimer
    obtain ⟨hsen, hsinit⟩ := hserial
    refine ⟨heffect.cfg_eq, htrun, htie, hgie, fun hne => ?_, hsen, fun hne => ?_⟩
    · obtain rfl := htinit hne
      exact hpresents.host
    · obtain ⟨baud, rfl⟩ := hsinit hne
      exact ⟨hpresents.host.1, baud, hpresents.host.2⟩

/-! ### The output traces -/

/-- The response of a `CAPTURE` has at most 21 bytes: a count and ten tokens (R66). -/
theorem length_captureResponse_le (v : Vector (Option Task) 10) : (captureResponse (snapshot v)).length ≤ 21 := by
  have hsnap : (snapshot v).length ≤ 10 := by
    simpa [snapshot] using List.length_filterMap_le slotToken v.toList
  have hbytes : ((snapshot v).flatMap bytes16).length = (snapshot v).length * 2 := by
    simp [List.length_flatMap]
  simp only [captureResponse, List.length_cons, hbytes]
  omega

/-- Only `RDCLK` and `CAPTURE` append to `RESP`, at most 21 bytes (R21, R66). -/
theorem Effect.resp_grows {x : Stimulus} {s t : State} (h : Effect x s t) :
    ∃ bs, t.resp = s.resp ++ bs ∧ bs.length ≤ 21 ∧ (bs ≠ [] → x = .cmd .rdclk ∨ x = .cmd .capture) := by
  cases h with
  | rdclk => exact ⟨_, rfl, by simp [clockResponse], fun _ => .inl rfl⟩
  | capture => exact ⟨_, rfl, length_captureResponse_le s.tasks, fun _ => .inr rfl⟩
  | _ => exact ⟨[], by simp, by simp, fun hne => absurd rfl hne⟩

/-- Only a drain that finds a byte appends to `TXOUT`, one byte (R21, R103). -/
theorem Effect.txout_grows {x : Stimulus} {s t : State} (h : Effect x s t) :
    ∃ bs, t.txout = s.txout ++ bs ∧ bs.length ≤ 1 ∧ (bs ≠ [] → x = .event .drain ∧ s.head ≠ s.tail) := by
  cases h with
  | drainByte _ hheld => exact ⟨[_], rfl, Nat.le_refl 1, fun _ => ⟨rfl, hheld⟩⟩
  | _ => exact ⟨[], by simp, by simp, fun hne => absurd rfl hne⟩

/-- Settles O40: a step is idle or appends one stimulus's bytes. -/
theorem outputTracesOnlyGrow : Obligations.OutputTracesOnlyGrow := by
  unfold Obligations.OutputTracesOnlyGrow
  intro s t hstep
  rcases step_effect hstep with ⟨rfl, -⟩ | ⟨x, u, hpresents, heffect⟩
  · exact ⟨⟨[], by simp [afterTurn], by simp, fun hne => absurd rfl hne⟩,
      ⟨[], by simp [afterTurn], by simp, fun hne => absurd rfl hne⟩⟩
  · obtain ⟨turns, cmdIn, rfl⟩ := hpresents.eq_set
    obtain ⟨resp, hresp, hrespLen, hrespBy⟩ := heffect.resp_grows
    obtain ⟨out, hout, houtLen, houtBy⟩ := heffect.txout_grows
    refine ⟨⟨resp, hresp, hrespLen, fun hne => ?_⟩, out, hout, houtLen, fun hne => ?_⟩
    · rcases hrespBy hne with rfl | rfl
      · exact ⟨hpresents.host.1, hpresents.host.2.imp fun _ => .inl⟩
      · exact ⟨hpresents.host.1, hpresents.host.2.imp fun _ => .inr⟩
    · obtain ⟨rfl, hheld⟩ := houtBy hne
      exact ⟨hpresents.txe_is_next, hheld⟩

/-! ### The write sets -/

/-- Storing a text leaves every other cell alone (R18). -/
theorem read_storeText_of_ne {cap a : Nat} (text : List Byte) (m : Memory) (i : Nat) (hi : i < cap)
    (ha : ∀ k < text.length, a ≠ (i + k) % cap) : (storeText cap m i text).read a = m.read a := by
  induction text generalizing m i with
  | nil => rfl
  | cons b bs ih =>
    have hne : a ≠ i := by simpa [Nat.mod_eq_of_lt hi] using ha 0 (by simp)
    rw [storeText, ih _ _ (nexti_lt (by omega) i), Memory.read_write_of_ne m b hne]
    intro k hk
    rw [nexti_add_mod]
    exact ha (k + 1) (by simpa using hk)

/-- No index further on, short of the capacity, is the first again. -/
theorem ne_add_mod {cap i k : Nat} (hi : i < cap) (h0 : 0 < k) (hk : k < cap) : i ≠ (i + k) % cap := by
  intro h
  rcases Nat.lt_or_ge (i + k) cap with hlt | hge
  · rw [Nat.mod_eq_of_lt hlt] at h
    omega
  · rw [Nat.mod_eq_sub_mod hge, Nat.mod_eq_of_lt (by omega)] at h
    omega

/-- A text no longer than the ring is read back where it was stored (R101). -/
theorem read_storeText {cap : Nat} (text : List Byte) (m : Memory) (i : Nat) (hi : i < cap)
    (hlen : text.length ≤ cap) {k : Nat} (hk : k < text.length) :
    (storeText cap m i text).read ((i + k) % cap) = text[k]? := by
  induction text generalizing m i k with
  | nil => simp at hk
  | cons b bs ih =>
    simp only [List.length_cons] at hlen hk
    have hnext := nexti_lt (Nat.zero_lt_of_lt hi) i
    cases k with
    | zero =>
      rw [storeText, Nat.add_zero, Nat.mod_eq_of_lt hi, read_storeText_of_ne bs _ _ hnext]
      · simp
      · intro j hj
        rw [nexti_add_mod]
        exact ne_add_mod hi (Nat.succ_pos j) (by omega)
    | succ k =>
      rw [storeText, ← nexti_add_mod, ih _ _ hnext (by omega) (by omega), List.getElem?_cons_succ]

/-- Settles O38: each stimulus's effect is a list of updates of its write set. -/
theorem stimuliKeepToTheirWriteSets : Obligations.StimuliKeepToTheirWriteSets := by
  unfold Obligations.StimuliKeepToTheirWriteSets
  intro x s t hstep
  cases stimulate_effect hstep with
  | tinit => rfl
  | tadd => rfl
  | rdclk => rfl
  | capture =>
    refine ⟨rfl, fun i => ?_⟩
    simpa using captureSlot_map_key s.tasks[i]
  | sinit => rfl
  | send hsen happend =>
    rename_i text m k
    refine ⟨rfl, fun hhead htail => ?_⟩
    obtain ⟨rfl, -⟩ := appendAll_closed hhead htail happend
    have hlen : (text.take (ringFree s.cfg.txcap s.head s.tail)).length =
        min text.length (ringFree s.cfg.txcap s.head s.tail) := by
      rw [List.length_take, Nat.min_comm]
    have hfit : (text.take (ringFree s.cfg.txcap s.head s.tail)).length ≤ s.cfg.txcap := by
      rw [hlen, ringFree]
      omega
    refine ⟨fun j hj => ?_, fun a ha => read_storeText_of_ne _ _ _ hhead (by rwa [hlen])⟩
    rw [← List.getElem?_take_of_lt (Nat.lt_min.1 hj).2]
    exact read_storeText _ _ _ hhead hfit (by rwa [hlen])
  | tick =>
    refine ⟨rfl, fun i => ?_⟩
    simpa using tickSlot_map_key (inc16 s.clock) s.tasks[i]
  | drainIdle => rfl
  | drainByte => rfl

end Sys2Proof.Machine

/-! PROOFS. The family of spec/20_memory.md: which commands and events can fault, and that from a state that
meets the invariants none does. -/

namespace Sys2Proof.Machine

/-! ### The faults of the commands and events, their critical section resolved -/

theorem execTinit_ne_fault (s : State) (f : Fault) : execTinit s ≠ .fault f := by
  unfold execTinit
  rw [Ne, atomic_eq_fault_iff]
  split <;> exact nofun

theorem execSinit_ne_fault (baud : U32) (s : State) (f : Fault) : execSinit baud s ≠ .fault f := by
  unfold execSinit
  rw [Ne, atomic_eq_fault_iff]
  split <;> exact nofun

/-- A `SEND` faults exactly where its append loop does. -/
theorem execSend_eq_fault_iff {text : List Byte} {s : State} {f : Fault} :
    execSend text s = .fault f ↔ s.sen = true ∧ appendAll text s = .error f := by
  unfold execSend
  rw [atomic_eq_fault_iff]
  cases hs : s.sen with
  | false => simp [enterCritical, hs]
  | true =>
    simp only [enterCritical, State.setGie_sen, hs, if_true, appendAll_setGie]
    cases appendAll text s <;> simp [Except.map]

/-- The only command that can fault is a `SEND` whose append loop does (R102). -/
theorem exec_eq_fault_iff {i : Instr} {s : State} {f : Fault} :
    exec i s = .fault f ↔ ∃ text, i = .send text ∧ s.sen = true ∧ appendAll text s = .error f := by
  cases i with
  | tinit => simp [exec, execTinit_ne_fault]
  | tadd action period => simp [exec, execTadd_eq]
  | rdclk => simp [exec, execRdclk_eq]
  | capture => simp [exec, execCapture_eq]
  | sinit baud => simp [exec, execSinit_ne_fault]
  | send text => simp [exec, execSend_eq_fault_iff]

/-- A host's turn faults by the decoder's verdict, or as the command decoded does. -/
theorem hostTurn_eq_fault {s : State} {f : Fault} (h : hostTurn s = .fault f) :
    f.fromDecoder = true ∨ ∃ i rest, decode s.cmdIn = .ok i rest ∧ exec i (s.setCmdIn rest) = .fault f := by
  unfold hostTurn at h
  split at h
  · cases h
  · rename_i b0 bs hc
    split at h
    · rename_i i rest hd
      exact .inr ⟨i, rest, hc ▸ hd, h⟩
    · cases h
      exact .inl rfl
    · cases h
      exact .inl rfl

/-! ### No fault from a state that meets the invariants -/

/-- A ring that holds a cell has a byte at `TAIL` (R50). -/
theorem State.Inv.read_tail {s : State} (hs : s.Inv) (hheld : s.head ≠ s.tail) :
    ∃ b, s.txbuf.read s.tail = some b := by
  have hwritten := hs.held_written
  rw [heldCells_cons hs.head_lt hs.tail_lt hheld] at hwritten
  exact Option.ne_none_iff_exists'.1 fun hnone => hwritten (hnone ▸ List.mem_cons_self)

/-- The append loop stays inside the buffer (R101, R102). -/
theorem State.Inv.exec_ne_fault {s : State} (hs : s.Inv) (i : Instr) (f : Fault) : exec i s ≠ .fault f := by
  intro h
  obtain ⟨text, -, -, herror⟩ := exec_eq_fault_iff.1 h
  rw [appendAll_eq text hs.head_lt hs.tail_lt] at herror
  cases herror

/-- A drain always answers: the ring is empty, or it reads the written cell at `TAIL` (R103). -/
theorem State.Inv.execDrain_answers {s : State} (hs : s.Inv) : ∃ t, execDrain s = .next t := by
  by_cases he : s.head = s.tail
  · exact ⟨_, execDrain_eq_next_iff.2 (.inl ⟨he, rfl⟩)⟩
  · obtain ⟨b, hb⟩ := hs.read_tail he
    exact ⟨_, execDrain_eq_next_iff.2 (.inr ⟨he, hs.tail_lt, b, hb, rfl⟩)⟩

theorem State.Inv.execEvent_answers {s : State} (hs : s.Inv) (e : Event) : ∃ t, execEvent e s = .next t := by
  cases e with
  | tick => exact ⟨_, execTick_eq s⟩
  | drain => exact hs.execDrain_answers

theorem State.Inv.eventTurn_ne_fault {s : State} (hs : s.Inv) (e : Event) (f : Fault) :
    eventTurn e s ≠ .fault f := by
  obtain ⟨t, ht⟩ := hs.execEvent_answers e
  rw [eventTurn_eq, ht]
  split <;> exact nofun

theorem State.Inv.after_turn {s : State} (hs : s.Inv) : (afterTurn s).Inv :=
  hs.set_streams s.turns.tail s.cmdIn

/-- Settles O42: by the agent at turn; an event's turn answers, and a command decoded does not fault. -/
theorem onlyTheDecoderFaults : Obligations.OnlyTheDecoderFaults := by
  unfold Obligations.OnlyTheDecoderFaults
  intro s f hs hstep
  rw [step_eq] at hstep
  generalize s.turns.head?.getD .host = turn at hstep
  cases turn with
  | host =>
    rcases hostTurn_eq_fault hstep with hdecoder | ⟨i, rest, -, hexec⟩
    · exact hdecoder
    · exact absurd hexec ((hs.set_streams s.turns.tail rest).exec_ne_fault i f)
  | tick => exact absurd hstep (hs.after_turn.eventTurn_ne_fault .tick f)
  | txe => exact absurd hstep (hs.after_turn.eventTurn_ne_fault .drain f)

end Sys2Proof.Machine


/-! PROOFS. The family of spec/30_encoding.md: decoding and encoding are inverse, what the decoder answers on
commands cut short and on illegal bytes, the fields of a command as bits of its integer, and what the host's turn
makes of the decoder's answer. -/

namespace Sys2Proof

/-! ### The decoder, one equation per answer of the opcode map -/

/-- What the decoder does with the bytes after the opcode of an operation (R61, R63). -/
def decodeOperands : Operation → List Byte → DecodeResult
  | .tinit => .ok .tinit
  | .tadd => decodeW2 .tadd
  | .rdclk => .ok .rdclk
  | .capture => .ok .capture
  | .sinit => decodeL .sinit
  | .send => decodeV .send

theorem decode_opcode_cons (o : Operation) (bs : List Byte) :
    decode (o.opcode :: bs) = decodeOperands o bs := by
  cases o <;> rfl

theorem decode_cons_of_illegal {b : Byte} (h : operationOf b = none) (bs : List Byte) :
    decode (b :: bs) = .illegal b := by
  simp [decode, h]

theorem decodeOperands_ne_illegal (o : Operation) (bs : List Byte) (b : Byte) :
    decodeOperands o bs ≠ .illegal b := by
  cases o with
  | tinit | rdclk | capture => exact nofun
  | tadd =>
    simp only [decodeOperands, decodeW2]
    split <;> exact nofun
  | sinit =>
    simp only [decodeOperands, decodeL]
    split <;> exact nofun
  | send =>
    simp only [decodeOperands, decodeV]
    split
    · exact nofun
    · split <;> exact nofun

/-- A byte sequence is empty, or begins with an illegal byte or with an operation's opcode (R64). -/
theorem stream_cases (bs : List Byte) :
    bs = [] ∨ (∃ b tl, bs = b :: tl ∧ operationOf b = none) ∨
      ∃ (o : Operation) (tl : List Byte), bs = o.opcode :: tl := by
  cases bs with
  | nil => exact .inl rfl
  | cons b tl =>
    cases ho : operationOf b with
    | none => exact .inr (.inl ⟨b, tl, rfl, ho⟩)
    | some o => exact .inr (.inr ⟨o, tl, by rw [(operationOf_eq_some_iff b o).1 ho]⟩)

/-- The decoder says illegal exactly of a first byte that is no opcode (R64, R70). -/
theorem decode_eq_illegal_iff {bs : List Byte} {b : Byte} :
    decode bs = .illegal b ↔ bs.head? = some b ∧ operationOf b = none := by
  rcases stream_cases bs with rfl | ⟨c, tl, rfl, hc⟩ | ⟨o, tl, rfl⟩
  · simp [decode]
  · simp only [decode_cons_of_illegal hc, DecodeResult.illegal.injEq, List.head?_cons, Option.some.injEq]
    exact ⟨fun h => ⟨h, h ▸ hc⟩, And.left⟩
  · simp only [decode_opcode_cons, decodeOperands_ne_illegal, List.head?_cons, Option.some.injEq, false_iff]
    rintro ⟨rfl, hnone⟩
    rw [(operationOf_eq_some_iff _ o).2 rfl] at hnone
    cases hnone

/-! ### Decoding and encoding are inverse -/

theorem wellFormed_send_iff {text : List Byte} : (Instr.send text).wellFormed = true ↔ text.length ≤ sendMax :=
  decide_eq_true_iff

/-- An encoded command is decoded to itself, whatever bytes follow (R70). -/
theorem decode_encode_append {i : Instr} (h : i.wellFormed = true) (rest : List Byte) :
    decode (encode i ++ rest) = .ok i rest := by
  cases i with
  | tinit => exact decode_opcode_cons .tinit rest
  | tadd action period => exact (decode_opcode_cons .tadd _).trans (decodeW2_bytes16 .tadd action period rest)
  | rdclk => exact decode_opcode_cons .rdclk rest
  | capture => exact decode_opcode_cons .capture rest
  | sinit baud => exact (decode_opcode_cons .sinit _).trans (decodeL_bytes32 .sinit baud rest)
  | send text =>
    exact (decode_opcode_cons .send _).trans (decodeV_text .send text rest (wellFormed_send_iff.1 h))

/-- A command read after an operation's opcode is well formed, and the bytes read are its encoding. -/
theorem decodeOperands_eq_ok {o : Operation} {bs rest : List Byte} {i : Instr}
    (h : decodeOperands o bs = .ok i rest) :
    i.wellFormed = true ∧ o.opcode :: bs = encode i ++ rest := by
  cases o with
  | tinit | rdclk | capture =>
    cases h
    exact ⟨rfl, rfl⟩
  | tadd =>
    obtain ⟨action, period, rfl, rfl⟩ := decodeW2_eq_ok h
    exact ⟨rfl, rfl⟩
  | sinit =>
    obtain ⟨baud, rfl, rfl⟩ := decodeL_eq_ok h
    exact ⟨rfl, rfl⟩
  | send =>
    obtain ⟨text, rfl, hlen, rfl⟩ := decodeV_eq_ok h
    exact ⟨wellFormed_send_iff.2 hlen, rfl⟩

theorem decode_eq_ok {bs rest : List Byte} {i : Instr} (h : decode bs = .ok i rest) :
    i.wellFormed = true ∧ bs = encode i ++ rest := by
  rcases stream_cases bs with rfl | ⟨b, tl, rfl, hb⟩ | ⟨o, tl, rfl⟩
  · cases h
  · rw [decode_cons_of_illegal hb] at h
    cases h
  · exact decodeOperands_eq_ok (decode_opcode_cons o tl ▸ h)

/-- Settles O1: decoding reads an encoding off the stream, and reads every encoding back. -/
theorem decodeAndEncodeAreInverse : Obligations.DecodeAndEncodeAreInverse := by
  unfold Obligations.DecodeAndEncodeAreInverse
  intro bs rest i
  exact ⟨decode_eq_ok, fun ⟨hwf, hbs⟩ => hbs ▸ decode_encode_append hwf rest⟩

/-! ### Commands cut short -/

/-- Bytes that decode to a command, decode to it with more bytes after them. -/
theorem decode_append_of_ok {bs rest : List Byte} {i : Instr} (h : decode bs = .ok i rest) (more : List Byte) :
    decode (bs ++ more) = .ok i (rest ++ more) := by
  obtain ⟨hwf, rfl⟩ := decode_eq_ok h
  rw [List.append_assoc]
  exact decode_encode_append hwf _

theorem decode_append_of_illegal {bs : List Byte} {b : Byte} (h : decode bs = .illegal b) (more : List Byte) :
    decode (bs ++ more) = .illegal b := by
  obtain ⟨hhead, hb⟩ := decode_eq_illegal_iff.1 h
  exact decode_eq_illegal_iff.2 ⟨by simp [List.head?_append, hhead], hb⟩

/-- The decoder wants more of a command cut short: a command found in the part, or an illegal first byte, would be
found in the whole command as well (R70). -/
theorem decode_of_encode_eq_append {i : Instr} {bs more : List Byte} (hwf : i.wellFormed = true) (hmore : more ≠ [])
    (henc : encode i = bs ++ more) : decode bs = .needMore := by
  have hwhole : decode (bs ++ more) = .ok i [] := by
    rw [← henc, ← List.append_nil (encode i)]
    exact decode_encode_append hwf []
  cases hd : decode bs with
  | needMore => rfl
  | illegal b =>
    rw [decode_append_of_illegal hd more] at hwhole
    cases hwhole
  | ok j rest =>
    rw [decode_append_of_ok hd more, DecodeResult.ok.injEq] at hwhole
    exact absurd (List.append_eq_nil_iff.1 hwhole.2).2 hmore

/-- Where format `W2` wants more bytes, zeros up to four complete the command. -/
theorem decodeW2_completes {mk : U16 → U16 → Instr} {bs : List Byte} (h : decodeW2 mk bs = .needMore) :
    ∃ more i, decodeW2 mk (bs ++ more) = .ok i [] :=
  match bs, h with
  | [], _ => ⟨[0, 0, 0, 0], _, rfl⟩
  | [_], _ => ⟨[0, 0, 0], _, rfl⟩
  | [_, _], _ => ⟨[0, 0], _, rfl⟩
  | [_, _, _], _ => ⟨[0], _, rfl⟩

/-- Where format `L` wants more bytes, zeros up to four complete the command. -/
theorem decodeL_completes {mk : U32 → Instr} {bs : List Byte} (h : decodeL mk bs = .needMore) :
    ∃ more i, decodeL mk (bs ++ more) = .ok i [] :=
  match bs, h with
  | [], _ => ⟨[0, 0, 0, 0], _, rfl⟩
  | [_], _ => ⟨[0, 0, 0], _, rfl⟩
  | [_, _], _ => ⟨[0, 0], _, rfl⟩
  | [_, _, _], _ => ⟨[0], _, rfl⟩

/-- Where format `V` wants more bytes, zeros up to `n` complete the command. -/
theorem decodeV_completes {mk : List Byte → Instr} {bs : List Byte} (h : decodeV mk bs = .needMore) :
    ∃ more i, decodeV mk (bs ++ more) = .ok i [] := by
  cases bs with
  | nil => exact ⟨[0], mk [], rfl⟩
  | cons n payload =>
    have hshort : payload.length < n.toNat := by
      rw [decodeV_cons] at h
      by_contra hlong
      simp [Nat.not_lt.1 hlong] at h
    obtain ⟨more, hfilled⟩ : ∃ more : List Byte, (payload ++ more).length = n.toNat := by
      refine ⟨List.replicate (n.toNat - payload.length) 0, ?_⟩
      rw [List.length_append, List.length_replicate]
      omega
    refine ⟨more, mk ((payload ++ more).take n.toNat), ?_⟩
    rw [List.cons_append, decodeV_cons, if_pos hfilled.ge, List.drop_of_length_le hfilled.le]

/-- Where an operation wants more operand bytes, some bytes complete the command. -/
theorem decodeOperands_completes {o : Operation} {bs : List Byte} (h : decodeOperands o bs = .needMore) :
    ∃ more i, decodeOperands o (bs ++ more) = .ok i [] := by
  cases o with
  | tinit | rdclk | capture => cases h
  | tadd => exact decodeW2_completes h
  | sinit => exact decodeL_completes h
  | send => exact decodeV_completes h

/-- Where the decoder wants more bytes, some bytes complete a command. -/
theorem decode_completes {bs : List Byte} (h : decode bs = .needMore) :
    ∃ more i, decode (bs ++ more) = .ok i [] := by
  rcases stream_cases bs with rfl | ⟨b, tl, rfl, hb⟩ | ⟨o, tl, rfl⟩
  · exact ⟨encode .tinit, .tinit, rfl⟩
  · rw [decode_cons_of_illegal hb] at h
    cases h
  · simp only [List.cons_append, decode_opcode_cons] at h ⊢
    exact decodeOperands_completes h

/-- Settles O2: what the decoder wants more of, some bytes complete; of a command cut short it wants more. -/
theorem needMoreExactlyOnProperPrefixes : Obligations.NeedMoreExactlyOnProperPrefixes := by
  unfold Obligations.NeedMoreExactlyOnProperPrefixes
  intro bs
  constructor
  · intro h
    obtain ⟨more, i, hok⟩ := decode_completes h
    obtain ⟨hwf, henc⟩ := decode_eq_ok hok
    refine ⟨i, more, hwf, ?_, by rw [henc, List.append_nil]⟩
    rintro rfl
    rw [List.append_nil, h] at hok
    cases hok
  · rintro ⟨i, more, hwf, hmore, henc⟩
    exact decode_of_encode_eq_append hwf hmore henc

/-- Settles O6: the bytes of R68 are the encodings of the commands, and the table word is evaluated. -/
theorem exampleEncodingsDecode : Obligations.ExampleEncodingsDecode := by
  unfold Obligations.ExampleEncodingsDecode
  have hencoded (i : Instr) (hwf : i.wellFormed = true) : decode (encode i) = .ok i [] := by
    simpa using decode_encode_append hwf []
  exact ⟨hencoded .tinit rfl, hencoded (.tadd 0x00A1 100) rfl, hencoded .rdclk rfl, hencoded .capture rfl,
    hencoded (.sinit 9600) rfl, hencoded (.send [0x48, 0x69]) rfl, hencoded (.send []) rfl, by decide⟩

/-! ### The integer of a command (R61) -/

@[simp] theorem commandInteger_nil : commandInteger [] = 0 := rfl

@[simp] theorem commandInteger_cons (b : Byte) (bs : List Byte) :
    commandInteger (b :: bs) = b.toNat + 256 * commandInteger bs := rfl

theorem commandInteger_append (xs ys : List Byte) :
    commandInteger (xs ++ ys) = commandInteger xs + 256 ^ xs.length * commandInteger ys := by
  induction xs with
  | nil => simp
  | cons x xs ih =>
    simp only [List.cons_append, commandInteger_cons, ih, List.length_cons, Nat.pow_succ]
    ring

@[simp] theorem commandInteger_bytes16 (v : U16) : commandInteger (bytes16 v) = v.toNat := by
  have := v.isLt
  simp only [bytes16, commandInteger_cons, commandInteger_nil, byteOf_toNat]
  omega

@[simp] theorem commandInteger_bytes32 (v : U32) : commandInteger (bytes32 v) = v.toNat := by
  have := v.isLt
  simp only [bytes32, commandInteger_cons, commandInteger_nil, byteOf_toNat]
  omega

/-- Byte `Bk` is `C[8k+7:8k]` (R61). -/
theorem commandInteger_byte (bs : List Byte) {k : Nat} (hk : k < bs.length) :
    commandInteger bs / 256 ^ k % 256 = bs[k].toNat := by
  induction bs generalizing k with
  | nil => cases hk
  | cons b bs ih =>
    have hb := b.isLt
    have htail : commandInteger (b :: bs) / 256 = commandInteger bs := by
      rw [commandInteger_cons]
      omega
    cases k with
    | zero =>
      simp only [commandInteger_cons, Nat.pow_zero, Nat.div_one, List.getElem_cons_zero]
      omega
    | succ k =>
      rw [Nat.pow_succ', ← Nat.div_div_eq_div_mul, htail, List.getElem_cons_succ]
      exact ih (Nat.lt_of_succ_lt_succ hk)

theorem commandInteger_tadd (action period : U16) :
    commandInteger (encode (.tadd action period)) = 2 + 256 * (action.toNat + 65536 * period.toNat) := by
  simp [encode, commandInteger_append]

theorem commandInteger_sinit (baud : U32) : commandInteger (encode (.sinit baud)) = 16 + 256 * baud.toNat := by
  simp [encode]

theorem tadd_fields (action period : U16) :
    let C := commandInteger (encode (.tadd action period))
    C % 2 ^ 8 = 0x02 ∧ C / 2 ^ 8 % 2 ^ 16 = action.toNat ∧ C / 2 ^ 24 % 2 ^ 16 = period.toNat := by
  have ha := action.isLt
  have hp := period.isLt
  simp only [commandInteger_tadd]
  omega

theorem sinit_fields (baud : U32) :
    let C := commandInteger (encode (.sinit baud))
    C % 2 ^ 8 = 0x10 ∧ C / 2 ^ 8 % 2 ^ 32 = baud.toNat := by
  have hb := baud.isLt
  simp only [commandInteger_sinit]
  omega

/-- The fields of a `SEND` are its bytes: `B0` the opcode, `B1` the length, `B(k+2)` the payload byte `k`. -/
theorem send_fields (text : List Byte) (hlen : text.length ≤ 255) :
    let C := commandInteger (encode (.send text))
    C % 2 ^ 8 = 0x11 ∧ C / 2 ^ 8 % 2 ^ 8 = text.length ∧
      ∀ (k : Nat) (hk : k < text.length), C / 2 ^ (8 * k + 16) % 2 ^ 8 = text[k].toNat := by
  have hlength : (encode (.send text)).length = text.length + 2 := rfl
  refine ⟨?_, ?_, fun k hk => ?_⟩
  · simp [encode]
  · have hn : text.length % 256 = text.length := Nat.mod_eq_of_lt (by omega)
    simpa [encode, hn] using commandInteger_byte (encode (.send text)) (k := 1) (by omega)
  · rw [show 8 * k + 16 = 8 * (k + 2) by omega, Nat.pow_mul]
    exact commandInteger_byte (encode (.send text)) (by omega)

/-- Settles O5: the fields are the bytes of the encoding, read off its integer. -/
theorem commandFieldsAreBitSlices : Obligations.CommandFieldsAreBitSlices := by
  unfold Obligations.CommandFieldsAreBitSlices
  refine ⟨rfl, rfl, rfl, rfl, rfl, rfl, fun action period => ⟨rfl, tadd_fields action period⟩,
    fun baud => ⟨rfl, sinit_fields baud⟩, fun text hlen => ⟨?_, send_fields text hlen⟩⟩
  simp only [encode, List.length_cons]
  omega

end Sys2Proof

/-! ### The host's turn, one rule per answer of the decoder -/

namespace Sys2Proof.Machine

theorem step_of_hostIsNext {s : State} (h : s.hostIsNext) : step s = hostTurn (afterTurn s) := by
  rw [step_eq, (hostIsNext_iff s).1 h]
  rfl

theorem hostTurn_of_ok {s : State} {i : Instr} {rest : List Byte} (h : decode s.cmdIn = .ok i rest) :
    hostTurn s = exec i (s.setCmdIn rest) := by
  unfold hostTurn
  split
  · rename_i hempty
    rw [hempty] at h
    cases h
  · rename_i hcmd
    rw [← hcmd, h]

theorem hostTurn_of_illegal {s : State} {b : Byte} (h : decode s.cmdIn = .illegal b) :
    hostTurn s = .fault (.illegalOpcode b) := by
  unfold hostTurn
  split
  · rename_i hempty
    rw [hempty] at h
    cases h
  · rename_i hcmd
    rw [← hcmd, h]

theorem hostTurn_of_needMore {s : State} (hne : s.cmdIn ≠ []) (h : decode s.cmdIn = .needMore) :
    hostTurn s = .fault (.truncatedCommand s.cmdIn) := by
  unfold hostTurn
  split
  · contradiction
  · rename_i hcmd
    rw [← hcmd, h]

/-- Settles O7: the host's turn performs the command decoded. -/
theorem stepRunsTheDecodedCommand : Obligations.StepRunsTheDecodedCommand := by
  unfold Obligations.StepRunsTheDecodedCommand
  intro s i rest hhost hdecode
  rw [step_of_hostIsNext hhost]
  exact hostTurn_of_ok hdecode

/-- Settles O4: the decoder wants more of a command cut short, and the host's turn then faults. -/
theorem truncatedCommandFaults : Obligations.TruncatedCommandFaults := by
  unfold Obligations.TruncatedCommandFaults
  intro s i more hhost hne hwf hmore henc
  rw [step_of_hostIsNext hhost]
  exact hostTurn_of_needMore hne (decode_of_encode_eq_append hwf hmore henc)

/-! ### An illegal opcode -/

/-- The append loop faults only by an index outside the buffer (R7, R102). -/
theorem appendAll_eq_error {text : List Byte} {s : State} {f : Fault} (h : appendAll text s = .error f) :
    ∃ index, f = .txbufOutOfRange index := by
  induction text generalizing s with
  | nil => cases h
  | cons b bs ih =>
    unfold appendAll at h
    split at h
    · cases h
    · split at h
      · exact ih h
      · rename_i g hg
        cases h
        by_cases hhead : s.head < s.cfg.txcap
        · rw [append_eq_ok_iff.2 ⟨hhead, rfl⟩] at hg
          cases hg
        · simp only [append, memWrite, appendIndex, hhead, if_false] at hg
          cases hg
          exact ⟨_, rfl⟩

theorem remove_eq_error {s : State} {f : Fault} (h : remove s = .error f) : f.fromDecoder = false := by
  unfold remove memRead at h
  split at h
  · cases h
  · rename_i g hg
    cases h
    split at hg
    · split at hg <;> cases hg
      rfl
    · cases hg
      rfl

/-- No command's own fault is the decoder's verdict, in any state. -/
theorem fromDecoder_of_exec_fault {i : Instr} {s : State} {f : Fault} (h : exec i s = .fault f) :
    f.fromDecoder = false := by
  obtain ⟨text, -, -, herror⟩ := exec_eq_fault_iff.1 h
  obtain ⟨index, rfl⟩ := appendAll_eq_error herror
  rfl

theorem fromDecoder_of_execDrain_fault {s : State} {f : Fault} (h : execDrain s = .fault f) :
    f.fromDecoder = false := by
  unfold execDrain at h
  rw [atomic_eq_fault_iff] at h
  split at h
  · cases h
  · split at h
    · cases h
    · rename_i hremove
      cases h
      exact remove_eq_error hremove

/-- No event's own fault is the decoder's verdict, in any state. -/
theorem fromDecoder_of_execEvent_fault {e : Event} {s : State} {f : Fault} (h : execEvent e s = .fault f) :
    f.fromDecoder = false := by
  cases e with
  | tick => cases (execTick_eq s).symm.trans h
  | drain => exact fromDecoder_of_execDrain_fault h

theorem fromDecoder_of_eventTurn_fault {e : Event} {s : State} {f : Fault} (h : eventTurn e s = .fault f) :
    f.fromDecoder = false := by
  rw [eventTurn_eq] at h
  split at h
  · exact fromDecoder_of_execEvent_fault h
  · cases h

/-- The host's turn faults with an illegal opcode exactly where the decoder says so. -/
theorem hostTurn_eq_illegalOpcode_iff {s : State} {b : Byte} :
    hostTurn s = .fault (.illegalOpcode b) ↔ decode s.cmdIn = .illegal b := by
  refine ⟨fun h => ?_, hostTurn_of_illegal⟩
  cases hd : decode s.cmdIn with
  | illegal c =>
    rw [hostTurn_of_illegal hd] at h
    cases h
    rfl
  | ok i rest =>
    rw [hostTurn_of_ok hd] at h
    cases fromDecoder_of_exec_fault h
  | needMore =>
    by_cases hempty : s.cmdIn = []
    · simp [hostTurn, hempty] at h
    · rw [hostTurn_of_needMore hempty hd] at h
      cases h

/-- A step that ends in the decoder's verdict is the host's. -/
theorem hostIsNext_of_step_fault {s : State} {f : Fault} (h : step s = .fault f) (hf : f.fromDecoder = true) :
    s.hostIsNext := by
  rw [hostIsNext_iff]
  rw [step_eq] at h
  generalize s.turns.head?.getD .host = turn at h
  have hevent (e : Event) : eventTurn e (afterTurn s) ≠ .fault f := fun he => by
    simp [fromDecoder_of_eventTurn_fault he] at hf
  cases turn with
  | host => rfl
  | tick => exact absurd h (hevent .tick)
  | txe => exact absurd h (hevent .drain)

/-- Settles O3: only the host's turn raises the decoder's verdict, and the opcode map has the six bytes. -/
theorem illegalOpcodeExactlyOutsideTheSix : Obligations.IllegalOpcodeExactlyOutsideTheSix := by
  unfold Obligations.IllegalOpcodeExactlyOutsideTheSix
  intro s b
  have hverdict : s.hostIsNext → (step s = .fault (.illegalOpcode b) ↔
      s.cmdIn.head? = some b ∧ b ∉ ([0x01, 0x02, 0x03, 0x04, 0x10, 0x11] : List Byte)) := fun hhost => by
    rw [step_of_hostIsNext hhost, hostTurn_eq_illegalOpcode_iff, decode_eq_illegal_iff, operationOf_eq_none_iff]
    rfl
  constructor
  · intro h
    have hhost := hostIsNext_of_step_fault h rfl
    exact ⟨hhost, (hverdict hhost).1 h⟩
  · rintro ⟨hhost, hbyte⟩
    exact (hverdict hhost).2 hbyte

/-! ### A table word placed at the front of the stream -/

/-- The stream bytes of a table word that decodes are the encoding of the command (R65). -/
theorem tableCommand_eq_encode {nbits w : Nat} {i : Instr} (h : decodeTableWord nbits w = some i) :
    i.wellFormed = true ∧ tableCommand nbits w = encode i := by
  unfold decodeTableWord at h
  split at h
  · rename_i j rest hd
    cases h
    obtain ⟨hwf, hbytes⟩ := decode_eq_ok hd
    exact ⟨hwf, by simp [tableCommand, hbytes, commandLength_encode hwf]⟩
  · cases h
  · cases h

/-- Settles O10: the word's bytes are the command's encoding, which the host's turn decodes and performs. -/
theorem placedTableWordRunsNext : Obligations.PlacedTableWordRunsNext := by
  unfold Obligations.PlacedTableWordRunsNext
  intro s nbits w i h
  obtain ⟨hwf, hbytes⟩ := tableCommand_eq_encode h
  have hdecode : decode (s.withFetchWord nbits w).cmdIn = .ok i s.cmdIn := by
    rw [State.withFetchWord, State.setCmdIn_cmdIn, hbytes]
    exact decode_encode_append hwf s.cmdIn
  exact stepRunsTheDecodedCommand _ i s.cmdIn (.inr rfl) hdecode

/-! ### A text longer than a command can carry -/

/-- A `SEND` acts by its append loop alone. -/
theorem execSend_congr {text text' : List Byte} {s : State} (h : appendAll text s = appendAll text' s) :
    execSend text s = execSend text' s := by
  simp only [execSend, atomic, enterCritical, appendAll_setGie, h]

/-- The buffer has no room for a byte after the first `SEND_MAX` (R5, R101). -/
theorem State.Inv.appendAll_take {s : State} (hs : s.Inv) (text : List Byte) :
    appendAll (text.take sendMax) s = appendAll text s := by
  have hroom : ringFree s.cfg.txcap s.head s.tail ≤ sendMax := by
    obtain ⟨-, hcap, -⟩ := hs.cfg_wf
    unfold ringFree sendMax
    omega
  rw [appendAll_eq _ hs.head_lt hs.tail_lt, appendAll_eq _ hs.head_lt hs.tail_lt, List.take_take,
    Nat.min_eq_left hroom]

/-- Settles O33: the append loop stores no byte after the first 255. -/
theorem longTextActsAsItsFirst255Bytes : Obligations.LongTextActsAsItsFirst255Bytes := by
  unfold Obligations.LongTextActsAsItsFirst255Bytes
  intro s text hs
  exact execSend_congr (hs.appendAll_take text).symm

end Sys2Proof.Machine

/-! PROOFS. The family of spec/40_tick_scheduler.md: the due comparator, the four TCU commands and `@TICK` on each
slot, the grid on which a periodic task fires, and the host's `SCHEDRUN` and `DELAY`. -/

namespace Sys2Proof.Machine

/-! ### The due comparator -/

theorem reached_iff (now nextRun : U16) : reached now nextRun = true ↔ (now - nextRun).toNat < 0x8000 :=
  decide_eq_true_iff

theorem reached_eq_false_iff (now nextRun : U16) :
    reached now nextRun = false ↔ 0x8000 ≤ (now - nextRun).toNat := by
  rw [← Bool.not_eq_true, reached_iff, Nat.not_lt]

/-- The modular difference in naturals (R6). -/
theorem toNat_sub_eq_mod (a b : U16) : (a - b).toNat = (a.toNat + 65536 - b.toNat) % 65536 := by
  rw [BitVec.toNat_sub]
  congr 1
  omega

theorem ne_zero_of_one_le_toNat {v : U16} (h : 1 ≤ v.toNat) : v ≠ 0 := by
  rintro rfl
  simp at h

/-- Settles O16: `DUE_WINDOW` is half the range. -/
theorem dueComparatorIsHalfRange : Obligations.DueComparatorIsHalfRange := by
  unfold Obligations.DueComparatorIsHalfRange
  intro now nextRun
  rw [reached_iff, toNat_sub_eq_mod]
  omega

/-- Settles O20: `k` ticks after the firing the difference is `k - PERIOD`, negative for `k < PERIOD`. -/
theorem periodBoundOfTheComparator : Obligations.PeriodBoundOfTheComparator := by
  unfold Obligations.PeriodBoundOfTheComparator
  intro c p
  refine ⟨fun hpos hbound => ⟨fun k hk hkp => ?_, ?_⟩, fun hlarge => ?_⟩
  · rw [reached_eq_false_iff]
    bv_omega
  · simp [reached_iff]
  · rw [reached_iff]
    bv_omega

/-! ### The commands and the tick, one rule each -/

/-- Settles O11: the two cases of `TRUN`. -/
theorem tinitSetsTheTimerBits : Obligations.TinitSetsTheTimerBits := by
  unfold Obligations.TinitSetsTheTimerBits
  refine fun s => ⟨fun htrun => ⟨_, execTinit_eq_next_iff.2 ⟨htrun, rfl⟩, rfl, rfl, ?_⟩, fun htrun => ?_⟩
  · simp [eventEnabled, drainEnabled]
  · show execTinit s = .refused .tinitRepeated
    rw [execTinit, atomic_eq_refused_iff]
    simp [enterCritical, htrun]

theorem exec_tadd (action period : U16) (s : State) :
    exec (.tadd action period) s = .next (s.setTasks (register s.tasks (newTask action period))) :=
  execTadd_eq action period s

/-- A registration fills the slot that is empty after occupied ones only (R81). -/
theorem register_of_first_empty {v : Vector (Option Task) 10} {i : Fin 10} (hempty : v[i] = none)
    (hbelow : ∀ j : Fin 10, j < i → v[j] ≠ none) (τ : Task) : register v τ = v.set i (some τ) := by
  rcases register_cases v τ with ⟨k, hk, hnone, hfirst, hr⟩ | ⟨hfull, -⟩
  · obtain hlt | heq | hgt := lt_trichotomy k i
    · exact absurd hnone (hbelow ⟨k, hk⟩ hlt)
    · rw [hr]
      subst heq
      rfl
    · exact absurd hempty (hfirst i hgt)
  · exact absurd hempty (hfull i i.isLt)

theorem register_of_full {v : Vector (Option Task) 10} (hfull : ∀ i : Fin 10, v[i] ≠ none) (τ : Task) :
    register v τ = v := by
  rcases register_cases v τ with ⟨k, hk, hnone, -⟩ | ⟨-, hr⟩
  · exact absurd hnone (hfull ⟨k, hk⟩)
  · exact hr

/-- Settles O12: a registration fills the first empty slot, or there is none. -/
theorem taddFillsTheFirstEmptySlot : Obligations.TaddFillsTheFirstEmptySlot := by
  unfold Obligations.TaddFillsTheFirstEmptySlot
  refine fun s action period => ⟨fun i hempty hbelow => ?_, fun hfull => ?_⟩
  · rw [exec_tadd, register_of_first_empty hempty hbelow]
    rfl
  · rw [exec_tadd, register_of_full hfull]
    rfl

/-- The state after a `RDCLK` (R86). -/
def afterRdclk (s : State) : State := s.setResp (s.resp ++ clockResponse s.clock)

theorem exec_rdclk (s : State) : exec .rdclk s = .next (afterRdclk s) := execRdclk_eq s

/-- A 16-bit value as it travels, its bytes written in naturals (R41). -/
theorem bytes16_eq (v : U16) : bytes16 v = [BitVec.ofNat 8 (v.toNat % 256), BitVec.ofNat 8 (v.toNat / 256)] := by
  simp only [bytes16, List.cons.injEq, and_true]
  constructor <;>
    · apply BitVec.eq_of_toNat_eq
      simp [byteOf_toNat]

/-- Settles O13: the response of `RDCLK` is the clock's two bytes. -/
theorem rdclkAnswersTheClock : Obligations.RdclkAnswersTheClock := by
  unfold Obligations.RdclkAnswersTheClock
  intro s
  rw [exec_rdclk, afterRdclk, clockResponse, bytes16_eq]
  rfl

/-- The state after a `CAPTURE` (R84). -/
def afterCapture (s : State) : State :=
  (s.setTasks (scanSlots captureSlot s.tasks)).setResp (s.resp ++ captureResponse (snapshot s.tasks))

theorem exec_capture (s : State) : exec .capture s = .next (afterCapture s) := execCapture_eq s

theorem capture_effect (s : State) : Effect (.cmd .capture) s (afterCapture s) := .capture

/-- The token of a slot, in the words of the statements. -/
theorem slotToken_eq_bind :
    slotToken = fun slot => slot.bind fun τ => if τ.ready = true then some τ.action else none := by
  funext slot
  cases slot <;> rfl

theorem length_snapshot_le (v : Vector (Option Task) 10) : (snapshot v).length ≤ 10 := by
  simpa [snapshot] using List.length_filterMap_le slotToken v.toList

/-- Settles O14: the response is the snapshot's, and a capture changes each slot's `READY` alone. -/
theorem captureAnswersAndClearsReadyTasks : Obligations.CaptureAnswersAndClearsReadyTasks := by
  unfold Obligations.CaptureAnswersAndClearsReadyTasks
  intro s
  refine ⟨_, exec_capture s, rfl, ?_, ?_, fun i => ?_⟩
  · rw [← slotToken_eq_bind]
    exact length_snapshot_le s.tasks
  · simp only [← slotToken_eq_bind, ← bytes16_eq]
    rfl
  · rw [afterCapture, State.setResp_tasks, State.setTasks_tasks, Fin.getElem_fin, getElem_scanSlots]
    cases s.tasks[(i : Nat)] with
    | none => rfl
    | some τ => simp [captureSlot_some, beq_eq_decide]

/-! ### The host's reading of a `CAPTURE` -/

@[simp] theorem tokensOfBytes_flatMap_bytes16 (snap : List U16) :
    tokensOfBytes (snap.flatMap bytes16) = some snap := by
  induction snap with
  | nil => rfl
  | cons a snap ih =>
    show (tokensOfBytes (snap.flatMap bytes16)).map (le16 (byteOf 0 a) (byteOf 1 a) :: ·) = some (a :: snap)
    simp [ih]

/-- The host reads back the snapshot list, which a count byte can count (R66, R69). -/
theorem tokensOfResponse_captureResponse {snap : List U16} (hlen : snap.length ≤ 255) :
    tokensOfResponse (captureResponse snap) = some snap := by
  have hcount : snap.length % 256 = snap.length := Nat.mod_eq_of_lt (by omega)
  simp [tokensOfResponse, captureResponse, hcount]

/-- What a `CAPTURE` tells the host (R84, R85). -/
theorem tokensOfResponse_afterCapture (s : State) :
    tokensOfResponse (responseOf s (afterCapture s)) = some (snapshot s.tasks) := by
  have hresponse : responseOf s (afterCapture s) = captureResponse (snapshot s.tasks) := List.drop_left
  have hlen := length_snapshot_le s.tasks
  rw [hresponse, tokensOfResponse_captureResponse (by omega)]

/-- Settles O47: the host reads the snapshot list off the response. -/
theorem schedrunHandsOverTheSnapshot : Obligations.SchedrunHandsOverTheSnapshot := by
  unfold Obligations.SchedrunHandsOverTheSnapshot
  intro s
  refine ⟨_, exec_capture s, ?_⟩
  rw [← slotToken_eq_bind, schedrun, exec_capture]
  simp [tokensOfResponse_afterCapture, snapshot]

theorem toList_scanSlots (f : Option Task → Option Task) (v : Vector (Option Task) 10) :
    (scanSlots f v).toList = v.toList.map f := rfl

/-- A second capture finds nothing to clear. -/
theorem captureSlot_captureSlot (slot : Option Task) : captureSlot (captureSlot slot) = captureSlot slot := by
  cases slot with
  | none => rfl
  | some τ => simp [captureSlot_some]

/-- After a capture only a background task is ready. -/
theorem slotToken_captureSlot (slot : Option Task) :
    slotToken (captureSlot slot) =
      slot.bind fun τ => if τ.ready = true ∧ τ.period = 0 then some τ.action else none := by
  cases slot with
  | none => rfl
  | some τ => simp [captureSlot_some, slotToken]

/-- Settles O15: the second capture scans slots whose `READY` the first has cleared. -/
theorem secondCaptureReturnsOnlyBackgroundTasks : Obligations.SecondCaptureReturnsOnlyBackgroundTasks := by
  unfold Obligations.SecondCaptureReturnsOnlyBackgroundTasks
  intro s t hcapture
  obtain rfl : afterCapture s = t := Host.Outcome.next.inj ((exec_capture s).symm.trans hcapture)
  have htasks : (afterCapture s).tasks = scanSlots captureSlot s.tasks := rfl
  refine ⟨_, exec_capture _, ?_, ?_⟩
  · show scanSlots captureSlot (scanSlots captureSlot s.tasks) = scanSlots captureSlot s.tasks
    ext1 i hi
    simp only [getElem_scanSlots, captureSlot_captureSlot]
  · rw [tokensOfResponse_afterCapture, htasks, snapshot, toList_scanSlots, List.filterMap_map]
    simp only [Function.comp_def, slotToken_captureSlot]

/-! ### The tick and each slot -/

/-- The state after a `@TICK` (R83). -/
def afterTick (s : State) : State :=
  (s.setClock (s.clock + 1)).setTasks (scanSlots (tickSlot (s.clock + 1)) s.tasks)

theorem execEvent_tick (s : State) : execEvent .tick s = .next (afterTick s) := execTick_eq s

@[simp] theorem afterTick_clock (s : State) : (afterTick s).clock = s.clock + 1 := rfl

theorem getElem_afterTick_tasks (s : State) (i : Fin 10) :
    (afterTick s).tasks[i] = tickSlot (s.clock + 1) s.tasks[i] := by
  simp [afterTick]

/-- Settles O17: the tick scans each slot by the incremented clock. -/
theorem tickAdvancesClockAndMarksDueTasks : Obligations.TickAdvancesClockAndMarksDueTasks := by
  unfold Obligations.TickAdvancesClockAndMarksDueTasks
  intro s
  refine ⟨rfl, _, execEvent_tick s, rfl, by simp [BitVec.toNat_add], fun i => ?_⟩
  rw [getElem_afterTick_tasks, afterTick_clock]
  cases s.tasks[i] with
  | none => rfl
  | some τ =>
    have hdue : taskDue (s.clock + 1) τ = true ↔
        τ.period ≠ 0 ∧ ((s.clock + 1).toNat + 65536 - τ.nextRun.toNat) % 65536 < 0x8000 := by
      rw [← toNat_sub_eq_mod, ← reached_iff]
      simp [taskDue]
    have hnext : add16 (s.clock + 1) τ.period = BitVec.ofNat 16 ((s.clock + 1).toNat + τ.period.toNat) := by
      rw [BitVec.ofNat_add, BitVec.ofNat_toNat, BitVec.ofNat_toNat, BitVec.setWidth_eq, BitVec.setWidth_eq, add16]
    simp only [Option.map_some, ← hdue, ← hnext, tickSlot]
    split <;> rfl

/-- All a stimulus can do to an occupied slot (R91): only a tick and a capture touch it. -/
theorem Effect.slot_of_some {x : Stimulus} {s t : State} (h : Effect x s t) {i : Fin 10} {τ : Task}
    (hτ : s.tasks[i] = some τ) :
    t.tasks[i] = if x = .event .tick then tickSlot (s.clock + 1) (some τ)
      else if x = .cmd .capture then captureSlot (some τ) else some τ := by
  cases h with
  | tadd => exact getElem_register_of_some i.isLt hτ
  | capture => exact (getElem_scanSlots captureSlot s.tasks i i.isLt).trans (congrArg captureSlot hτ)
  | tick => exact (getElem_afterTick_tasks s i).trans (congrArg (tickSlot (s.clock + 1)) hτ)
  | _ => exact hτ

theorem tickSlot_some_of_periodic (now : U16) {τ : Task} (hperiodic : τ.period ≠ 0) :
    tickSlot now (some τ) = some (if reached now τ.nextRun = true then
      { τ with ready := true, nextRun := now + τ.period } else τ) := by
  simp only [tickSlot, taskDue, bne_iff_ne.2 hperiodic, Bool.true_and]
  split <;> rfl

theorem captureSlot_some_of_periodic {τ : Task} (hperiodic : τ.period ≠ 0) :
    captureSlot (some τ) = some { τ with ready := false } := by
  rw [captureSlot_some, beq_false_of_ne hperiodic, Bool.and_false]

/-- The slot of a background task is changed by no stimulus (R92). -/
theorem Effect.keeps_background_slot {x : Stimulus} {s t : State} (h : Effect x s t) {i : Fin 10} {τ : Task}
    (hτ : s.tasks[i] = some τ) (hperiod : τ.period = 0) : t.tasks[i] = some τ := by
  have htick : tickSlot (s.clock + 1) (some τ) = some τ :=
    tickSlot_some_of_not_due (taskDue_of_background _ hperiod)
  have hcapture : captureSlot (some τ) = some τ := by
    rw [captureSlot_some, beq_iff_eq.2 hperiod, Bool.and_true]
  rw [h.slot_of_some hτ, htick, hcapture, ite_self, ite_self]

/-- Settles O19: by the stimulus; of a periodic task a tick tests the comparator alone. -/
theorem onlyTickSetsAndOnlyCaptureClearsReady : Obligations.OnlyTickSetsAndOnlyCaptureClearsReady := by
  unfold Obligations.OnlyTickSetsAndOnlyCaptureClearsReady
  intro x s t i τ hstep hτ hperiodic
  rw [(stimulate_effect hstep).slot_of_some hτ, tickSlot_some_of_periodic _ hperiodic,
    captureSlot_some_of_periodic hperiodic]
  simp only [apply_ite some]

/-- Every ready slot's token is in the snapshot list. -/
theorem mem_snapshot {v : Vector (Option Task) 10} {i : Fin 10} {τ : Task} (hτ : v[i] = some τ)
    (hready : τ.ready = true) : τ.action ∈ snapshot v :=
  List.mem_filterMap.2 ⟨some τ, hτ ▸ by simp, by simp [slotToken, hready]⟩

/-- Settles O18: a background task is ready by the invariants, and no stimulus touches its slot. -/
theorem backgroundTaskIsFixedAndAlwaysCaptured : Obligations.BackgroundTaskIsFixedAndAlwaysCaptured := by
  unfold Obligations.BackgroundTaskIsFixedAndAlwaysCaptured
  intro s i τ hs hτ hperiod
  have hready := (hs.background i τ hτ hperiod).1
  refine ⟨hready, fun t hstep => ?_, _, _, exec_capture s, tokensOfResponse_afterCapture s, mem_snapshot hτ hready⟩
  rcases step_effect hstep with ⟨rfl, -⟩ | ⟨x, u, hpresents, heffect⟩
  · exact hτ
  · obtain ⟨turns, cmdIn, rfl⟩ := hpresents.eq_set
    exact heffect.keeps_background_slot hτ hperiod

end Sys2Proof.Machine

/-! ### Traces and runs of ticks -/

namespace Sys2Proof.Machine

theorem runTrace_cons_of_next {x : Stimulus} {s t : State} (h : stimulate x s = some (.next t))
    (xs : List Stimulus) : runTrace (x :: xs) s = runTrace xs t := by
  simp [runTrace, h]

theorem runTrace_cons_eq_next {x : Stimulus} {xs : List Stimulus} {s t : State}
    (h : runTrace (x :: xs) s = some (.next t)) :
    ∃ u, stimulate x s = some (.next u) ∧ runTrace xs u = some (.next t) := by
  unfold runTrace at h
  split at h
  · cases h
  · rename_i u hu
    exact ⟨u, hu, h⟩
  · cases h
  · cases h

theorem runTrace_append {xs : List Stimulus} {s t : State} (h : runTrace xs s = some (.next t))
    (ys : List Stimulus) : runTrace (xs ++ ys) s = runTrace ys t := by
  induction xs generalizing s with
  | nil =>
    cases h
    rfl
  | cons x xs ih =>
    obtain ⟨u, hu, hrun⟩ := runTrace_cons_eq_next h
    rw [List.cons_append, runTrace_cons_of_next hu, ih hrun]

/-- No stimulus disables the tick: the timer bits go from 0 to 1 only (R16). -/
theorem Effect.keeps_tick_enabled {x : Stimulus} {s t : State} (h : Effect x s t)
    (hs : eventEnabled .tick s = true) : eventEnabled .tick t = true := by
  rcases h.timer_bits with hkept | ⟨-, htrun, htie, hgie⟩
  · simp_all [eventEnabled, tickEnabled]
  · simp [eventEnabled, tickEnabled, htrun, htie, hgie]

theorem trace_keeps_tick_enabled {xs : List Stimulus} {s t : State} (h : runTrace xs s = some (.next t))
    (hs : eventEnabled .tick s = true) : eventEnabled .tick t = true := by
  induction xs generalizing s with
  | nil =>
    cases h
    exact hs
  | cons x xs ih =>
    obtain ⟨u, hu, hrun⟩ := runTrace_cons_eq_next h
    exact ih hrun ((stimulate_effect hu).keeps_tick_enabled hs)

/-- Along a trace `CLOCK` counts the ticks (R11). -/
theorem trace_clock {xs : List Stimulus} {s t : State} (h : runTrace xs s = some (.next t)) :
    t.clock = s.clock + BitVec.ofNat 16 (ticksIn xs) := by
  induction xs generalizing s with
  | nil =>
    cases h
    simp
  | cons x xs ih =>
    obtain ⟨u, hu, hrun⟩ := runTrace_cons_eq_next h
    rw [ih hrun, (stimulate_effect hu).clock_eq, ticksIn_cons]
    split
    · rw [Nat.add_comm, BitVec.ofNat_add, ← BitVec.add_assoc]
      rfl
    · rfl

theorem stimulate_tick {s : State} (hs : eventEnabled .tick s = true) :
    stimulate (.event .tick) s = some (.next (afterTick s)) := by
  rw [stimulate, if_pos hs, execEvent_tick]

/-- Where the tick is enabled, any number of them occurs. -/
theorem runTrace_ticksTrace {s : State} (hs : eventEnabled .tick s = true) (n : Nat) :
    runTrace (ticksTrace n) s = some (.next (afterTick^[n] s)) := by
  induction n generalizing s with
  | zero => rfl
  | succ n ih =>
    rw [ticksTrace, List.replicate_succ, runTrace_cons_of_next (stimulate_tick hs)]
    exact ih hs

theorem iterate_afterTick_clock (s : State) (n : Nat) : (afterTick^[n] s).clock = s.clock + BitVec.ofNat 16 n := by
  induction n generalizing s with
  | zero => simp
  | succ n ih =>
    rw [Function.iterate_succ_apply, ih, afterTick_clock, Nat.add_comm, BitVec.ofNat_add, ← BitVec.add_assoc]
    rfl

end Sys2Proof.Machine

/-! ### The grid of a periodic task -/

namespace Sys2Proof.Machine

/-- A task after `k` firings on its grid, with this value of `READY` (R89). -/
def Task.advanced (τ : Task) (ready : Bool) (k : Nat) : Task :=
  { τ with ready := ready, nextRun := τ.nextRun + BitVec.ofNat 16 (k * τ.period.toNat) }

section
variable (τ : Task) (ready ready' : Bool) (j k : Nat)

@[simp] theorem Task.advanced_period : (τ.advanced ready k).period = τ.period := rfl

@[simp] theorem Task.advanced_ready : (τ.advanced ready k).ready = ready := rfl

@[simp] theorem Task.advanced_advanced : (τ.advanced ready j).advanced ready' k = τ.advanced ready' (j + k) := by
  simp [Task.advanced, Nat.add_mul, BitVec.ofNat_add, BitVec.add_assoc]

theorem Task.advanced_zero : τ.advanced ready 0 = { τ with ready := ready } := by
  simp [Task.advanced]

theorem Task.advanced_one : τ.advanced ready 1 = { τ with ready := ready, nextRun := τ.nextRun + τ.period } := by
  simp [Task.advanced]

end

/-- Slot `i` holds the periodic task `τ`, of a period the comparator can tell, and its next firing lies `d` ticks
ahead (R88, R89). -/
structure Scheduled (s : State) (i : Fin 10) (τ : Task) (d : Nat) : Prop where
  slot : s.tasks[i] = some τ
  period_pos : 1 ≤ τ.period.toNat
  period_le : τ.period.toNat ≤ 0x8001
  ahead : (τ.nextRun - s.clock).toNat = d
  ahead_pos : 1 ≤ d
  ahead_le : d ≤ 0x8001

theorem firings_one_of_now (p : Nat) : firings 1 p 1 = 1 := by
  simp [firings]

theorem firings_one_of_later {d : Nat} (hd : 1 < d) (p : Nat) : firings d p 1 = 0 := firings_of_lt hd

/-- After a firing the next one is a period away. -/
theorem firings_succ_of_now {p : Nat} (hp : 1 ≤ p) (n : Nat) : firings 1 p (n + 1) = 1 + firings p p n := by
  rw [firings_of_le (by omega), Nat.add_sub_cancel, Nat.add_comm]
  rcases Nat.lt_or_ge n p with hlt | hge
  · rw [firings_of_lt hlt, Nat.div_eq_of_lt hlt]
  · rw [firings_of_le hge, Nat.div_eq_sub_div hp hge]

theorem firings_succ_of_later {d : Nat} (hd : 1 < d) (p n : Nat) : firings d p (n + 1) = firings (d - 1) p n := by
  unfold firings
  rw [show n + 1 - d = n - (d - 1) by omega]
  exact if_congr (by omega) rfl rfl

namespace Scheduled

variable {s : State} {i : Fin 10} {τ : Task} {d : Nat}

theorem period_ne_zero (h : Scheduled s i τ d) : τ.period ≠ 0 := ne_zero_of_one_le_toNat h.period_pos

/-- The comparator says due at the next tick exactly when the firing is that tick (R88). -/
theorem reached_iff (h : Scheduled s i τ d) : reached (s.clock + 1) τ.nextRun = true ↔ d = 1 := by
  obtain ⟨-, -, -, hahead, hpos, hle⟩ := h
  rw [Machine.reached_iff]
  bv_omega

/-- A tick moves a scheduled task along its grid. -/
theorem tick (h : Scheduled s i τ d) :
    ∃ d', Scheduled (afterTick s) i (τ.advanced (τ.ready || decide (d ≤ 1)) (firings d τ.period.toNat 1)) d' ∧
      ∀ n, firings d τ.period.toNat (n + 1) = firings d τ.period.toNat 1 + firings d' τ.period.toNat n := by
  have hslot := (getElem_afterTick_tasks s i).trans (congrArg (tickSlot (s.clock + 1)) h.slot)
  rw [tickSlot_some_of_periodic _ h.period_ne_zero] at hslot
  obtain ⟨-, hpos, hle, hahead, hdpos, hdle⟩ := id h
  by_cases hd : d = 1
  · subst hd
    have hnow : s.clock + 1 = τ.nextRun := by bv_omega
    refine ⟨τ.period.toNat, ⟨?_, hpos, hle, ?_, hpos, hle⟩, fun n => ?_⟩
    · rw [hslot, if_pos (h.reached_iff.2 rfl), hnow, firings_one_of_now, Task.advanced_one]
      simp
    · rw [firings_one_of_now, Task.advanced_one, afterTick_clock, hnow]
      bv_omega
    · rw [firings_one_of_now, firings_succ_of_now hpos]
  · have hlater : 1 < d := by omega
    have hkept : τ.advanced (τ.ready || decide (d ≤ 1)) (firings d τ.period.toNat 1) = τ := by
      rw [firings_one_of_later hlater, Task.advanced_zero, decide_eq_false (Nat.not_le.2 hlater), Bool.or_false]
    rw [hkept]
    refine ⟨d - 1, ⟨?_, hpos, hle, ?_, by omega, by omega⟩, fun n => ?_⟩
    · rw [hslot, if_neg (mt h.reached_iff.1 hd)]
    · rw [afterTick_clock]
      bv_omega
    · rw [firings_one_of_later hlater, firings_succ_of_later hlater, Nat.zero_add]

/-- In a run of ticks a task fires on its grid, and `READY` stays set from the first firing on (R89). -/
theorem ticks (h : Scheduled s i τ d) (n : Nat) :
    (afterTick^[n] s).tasks[i] = some (τ.advanced (τ.ready || decide (d ≤ n)) (firings d τ.period.toNat n)) := by
  induction n generalizing s τ d with
  | zero =>
    have hpos := h.ahead_pos
    rw [firings_of_lt hpos, Task.advanced_zero]
    simp [h.slot, Nat.ne_of_gt hpos]
  | succ n ih =>
    obtain ⟨d', h', hgrid⟩ := h.tick
    have hready : d ≤ n + 1 ↔ d ≤ 1 ∨ d' ≤ n := by
      rw [← firings_pos_iff d τ.period.toNat (n + 1), ← firings_pos_iff d τ.period.toNat 1,
        ← firings_pos_iff d' τ.period.toNat n, hgrid n]
      omega
    rw [Function.iterate_succ_apply, ih h', Task.advanced_advanced, Task.advanced_period, Task.advanced_ready,
      ← hgrid, decide_eq_decide.2 hready, Bool.decide_or, Bool.or_assoc]

/-- A stimulus other than a tick leaves the grid; it changes `READY` at most, and only a capture does. -/
theorem keeps_grid {x : Stimulus} {t : State} (h : Scheduled s i τ d) (heffect : Effect x s t)
    (hx : x ≠ .event .tick) : Scheduled t i (τ.advanced (if x = .cmd .capture then false else τ.ready) 0) d := by
  have hslot := heffect.slot_of_some h.slot
  rw [if_neg hx, captureSlot_some_of_periodic h.period_ne_zero] at hslot
  rw [Task.advanced_zero]
  refine ⟨?_, h.period_pos, h.period_le, ?_, h.ahead_pos, h.ahead_le⟩
  · rw [hslot]
    split <;> rfl
  · rw [heffect.clock_eq, if_neg hx]
    exact h.ahead

theorem capture (h : Scheduled s i τ d) : Scheduled (afterCapture s) i (τ.advanced false 0) d :=
  h.keeps_grid (capture_effect s) nofun

/-- Along every trace the task moves along its grid as its ticks say, and at the end its next firing is the grid's
next instant (R89). -/
theorem trace {xs : List Stimulus} {t : State} (h : Scheduled s i τ d) (hrun : runTrace xs s = some (.next t)) :
    ∃ ready d', Scheduled t i (τ.advanced ready (firings d τ.period.toNat (ticksIn xs))) d' ∧
      ∀ n, firings d τ.period.toNat (ticksIn xs + n) =
        firings d τ.period.toNat (ticksIn xs) + firings d' τ.period.toNat n := by
  induction xs generalizing s τ d with
  | nil =>
    cases hrun
    have hnone : firings d τ.period.toNat 0 = 0 := firings_of_lt h.ahead_pos
    refine ⟨τ.ready, d, ?_, fun n => ?_⟩
    · rw [ticksIn_nil, hnone, Task.advanced_zero]
      exact h
    · rw [ticksIn_nil, hnone, Nat.zero_add, Nat.zero_add]
  | cons x xs ih =>
    obtain ⟨u, hu, hrest⟩ := runTrace_cons_eq_next hrun
    have heffect := stimulate_effect hu
    rw [ticksIn_cons]
    by_cases hx : x = .event .tick
    · subst hx
      cases heffect
      obtain ⟨d₁, h₁, hfirst⟩ := h.tick
      obtain ⟨ready, d', h', hgrid⟩ := ih h₁ hrest
      rw [Task.advanced_advanced, Task.advanced_period, ← hfirst] at h'
      refine ⟨ready, d', h', fun n => ?_⟩
      have hrest' := hgrid n
      rw [Task.advanced_period] at hrest'
      rw [if_pos rfl, Nat.add_right_comm, hfirst, hfirst (ticksIn xs), hrest', Nat.add_assoc]
    · have h₁ := h.keeps_grid heffect hx
      obtain ⟨ready', d', h', hgrid⟩ := ih h₁ hrest
      rw [Task.advanced_advanced, Nat.zero_add] at h'
      rw [if_neg hx, Nat.add_zero]
      exact ⟨ready', d', h', hgrid⟩

end Scheduled

/-- Settles O21: the grid in a run of ticks. -/
theorem undispatchedTaskStaysOnItsGrid : Obligations.UndispatchedTaskStaysOnItsGrid := by
  unfold Obligations.UndispatchedTaskStaysOnItsGrid
  intro s i τ n henabled hτ hppos hple d hdpos hdle
  have hsched : Scheduled s i τ d := ⟨hτ, hppos, hple, rfl, hdpos, hdle⟩
  refine ⟨_, runTrace_ticksTrace henabled n, iterate_afterTick_clock s n, ?_⟩
  rw [hsched.ticks, Task.advanced, firings]
  by_cases hn : n < d <;> simp [hn]

/-- Settles O51: the grid along the trace, then from its end the grid in a run of ticks after a capture. -/
theorem firingGridIsIndependentOfDispatch : Obligations.FiringGridIsIndependentOfDispatch := by
  unfold Obligations.FiringGridIsIndependentOfDispatch
  intro s t i τ xs henabled hτ hppos hple d advance hdpos hdle hrun
  have hsched : Scheduled s i τ d := ⟨hτ, hppos, hple, rfl, hdpos, hdle⟩
  obtain ⟨ready, d', hend, hgrid⟩ := hsched.trace hrun
  refine ⟨trace_clock hrun, ⟨ready, hend.slot⟩, fun n => ?_⟩
  have henabled' : eventEnabled .tick (afterCapture t) = true :=
    (capture_effect t).keeps_tick_enabled (trace_keeps_tick_enabled hrun henabled)
  have hcapture : stimulate (.cmd .capture) t = some (.next (afterCapture t)) := congrArg some (exec_capture t)
  refine ⟨_, (runTrace_cons_of_next hcapture _).trans (runTrace_ticksTrace henabled' n), ?_⟩
  have hready : decide (d' ≤ n) =
      decide (firings d τ.period.toNat (ticksIn xs) < firings d τ.period.toNat (ticksIn xs + n)) := by
    rw [hgrid, decide_eq_decide, ← firings_pos_iff d' τ.period.toNat]
    omega
  rw [hend.capture.ticks]
  simp only [Task.advanced_advanced, Task.advanced_period, Task.advanced_ready, Bool.false_or, Nat.add_zero, ← hgrid,
    hready]
  rfl

end Sys2Proof.Machine

/-! ### The first firing after a registration -/

namespace Sys2Proof.Machine

/-- Registrations keep every occupied slot, and write the task table alone (R81, R91). -/
theorem runTrace_registrations (xs : List (U16 × U16)) (s : State) :
    ∃ v, runTrace (xs.map fun x => Stimulus.cmd (.tadd x.1 x.2)) s = some (.next (s.setTasks v)) ∧
      ∀ (i : Fin 10) (τ : Task), s.tasks[i] = some τ → v[i] = some τ := by
  induction xs generalizing s with
  | nil => exact ⟨s.tasks, rfl, fun _ _ => id⟩
  | cons x xs ih =>
    obtain ⟨v, hrun, hkept⟩ := ih (s.setTasks (register s.tasks (newTask x.1 x.2)))
    exact ⟨v, hrun, fun i τ hτ => hkept i τ (getElem_register_of_some i.isLt hτ)⟩

/-- `TINIT` where the timer is off, and nothing where it is on, enables the tick (R80). -/
theorem runTrace_start {s : State} (hs : eventEnabled .tick s = true ∨ s.trun = false) :
    ∃ t, runTrace (if s.trun = true then [] else [Stimulus.cmd .tinit]) s = some (.next t) ∧
      eventEnabled .tick t = true ∧ t.clock = s.clock ∧ t.tasks = s.tasks := by
  cases htrun : s.trun with
  | true =>
    have henabled : eventEnabled .tick s = true := hs.resolve_right (by simp [htrun])
    exact ⟨s, rfl, henabled, rfl, rfl⟩
  | false =>
    have htinit : stimulate (.cmd .tinit) s = some (.next (((s.setTrun true).setTie true).setGie true)) :=
      congrArg some (execTinit_eq_next_iff.2 ⟨htrun, rfl⟩)
    exact ⟨_, runTrace_cons_of_next htinit [], rfl, rfl, rfl⟩

/-- A task registered too late for the comparator to wait for `NEXT_RUN` fires at the next tick, and is on its grid
from there (R90). -/
theorem scheduled_of_reached {s : State} {i : Fin 10} {τ : Task} (hτ : s.tasks[i] = some τ)
    (hpos : 1 ≤ τ.period.toNat) (hle : τ.period.toNat ≤ 0x8001) (hreached : reached (s.clock + 1) τ.nextRun = true) :
    Scheduled (afterTick s) i { τ with ready := true, nextRun := s.clock + 1 + τ.period } τ.period.toNat where
  slot := by
    rw [getElem_afterTick_tasks, hτ, tickSlot_some_of_periodic _ (ne_zero_of_one_le_toNat hpos), if_pos hreached]
  period_pos := hpos
  period_le := hle
  ahead := by
    show (s.clock + 1 + τ.period - (s.clock + 1)).toNat = τ.period.toNat
    bv_omega
  ahead_pos := hpos
  ahead_le := hle

/-- A task whose `NEXT_RUN` the comparator does not yet see reached waits for it (R88, R90). -/
theorem scheduled_of_not_reached {s : State} {i : Fin 10} {τ : Task} (hτ : s.tasks[i] = some τ)
    (hpos : 1 ≤ τ.period.toNat) (hle : τ.period.toNat ≤ 0x8001)
    (hreached : reached (s.clock + 1) τ.nextRun = false) : Scheduled s i τ (τ.nextRun - s.clock).toNat := by
  rw [reached_eq_false_iff] at hreached
  exact ⟨hτ, hpos, hle, rfl, by bv_omega, by bv_omega⟩

/-- The first firing of a task not ready yet (R90). -/
theorem ready_after_ticks {s : State} {i : Fin 10} {τ : Task} (hτ : s.tasks[i] = some τ)
    (hpos : 1 ≤ τ.period.toNat) (hle : τ.period.toNat ≤ 0x8001) (hready : τ.ready = false) (n : Nat) :
    ∃ τ', (afterTick^[n] s).tasks[i] = some τ' ∧ τ'.ready =
      decide ((if reached (s.clock + 1) τ.nextRun = true then 1 else (τ.nextRun - s.clock).toNat) ≤ n) := by
  cases hreached : reached (s.clock + 1) τ.nextRun with
  | true =>
    cases n with
    | zero => exact ⟨τ, hτ, hready⟩
    | succ n => exact ⟨_, (scheduled_of_reached hτ hpos hle hreached).ticks n, by simp⟩
  | false => exact ⟨_, (scheduled_of_not_reached hτ hpos hle hreached).ticks n, by simp [hready]⟩

/-- Settles O22: the registration puts the task in slot `i`, and neither the further ones nor `TINIT` touch it. -/
theorem firstFiringAfterRegistration : Obligations.FirstFiringAfterRegistration := by
  unfold Obligations.FirstFiringAfterRegistration
  intro s i action p n later hs hempty hbelow hppos hple first registrations start
  have hfilled : (register s.tasks (newTask action p))[i] = some (newTask action p) := by
    rw [register_of_first_empty hempty hbelow]
    simp
  obtain ⟨v, hregistered, hkept⟩ :=
    runTrace_registrations later (s.setTasks (register s.tasks (newTask action p)))
  obtain ⟨u, hstart, henabled, hclock, htasks⟩ := runTrace_start (s := s.setTasks v) hs
  have hslot : u.tasks[i] = some (newTask action p) := htasks ▸ hkept i _ hfilled
  have hidle : (newTask action p).ready = false := beq_false_of_ne (ne_zero_of_one_le_toNat hppos)
  obtain ⟨τ, hτ, hfirst⟩ := ready_after_ticks hslot hppos hple hidle n
  have hrun : runTrace (registrations ++ start ++ ticksTrace n) s = some (.next (afterTick^[n] u)) := by
    have hregistrations : runTrace registrations s = some (.next (s.setTasks v)) := hregistered
    have hstarted : runTrace start (s.setTasks v) = some (.next u) := hstart
    rw [List.append_assoc, runTrace_append hregistrations, runTrace_append hstarted, runTrace_ticksTrace henabled]
  have hclock : u.clock = s.clock := hclock
  rw [hclock] at hfirst
  refine ⟨_, τ, hrun, ?_, hτ, hfirst⟩
  rw [iterate_afterTick_clock, hclock]

end Sys2Proof.Machine

/-! ### The host's `DELAY` -/

namespace Sys2Proof.Machine

@[simp] theorem afterRdclk_clock (s : State) : (afterRdclk s).clock = s.clock := rfl

@[simp] theorem eventEnabled_afterRdclk (e : Event) (s : State) :
    eventEnabled e (afterRdclk s) = eventEnabled e s := by
  cases e <;> rfl

@[simp] theorem clockOfResponse_clockResponse (clock : U16) : clockOfResponse (clockResponse clock) = some clock := by
  simp [clockOfResponse, clockResponse, bytes16]

theorem pollClock_eq (s : State) : pollClock s = some (s.clock, afterRdclk s) := by
  have hresponse : responseOf s (afterRdclk s) = clockResponse s.clock := List.drop_left
  simp [pollClock, exec_rdclk, hresponse]

theorem delay_eq (ms : U16) (gaps : List (List Event)) (s : State) :
    delay ms gaps s = delayLoop ms s.clock gaps (afterRdclk s) := by
  simp [delay, pollClock_eq]

/-- One round of the loop of `DELAY`: the events of the gap, then the poll and the test (R87). -/
theorem delayLoop_cons_of_next {gap : List Event} {s t : State} (h : runEvents gap s = .next t) (ms start : U16)
    (gaps : List (List Event)) :
    delayLoop ms start (gap :: gaps) s =
      if delayWaits ms start t.clock = true then delayLoop ms start gaps (afterRdclk t)
      else .returned (afterRdclk t) := by
  simp [delayLoop, h, pollClock_eq]

theorem delayWaits_iff (ms start cur : U16) : delayWaits ms start cur = true ↔ (cur - start).toNat < ms.toNat :=
  decide_eq_true_iff

/-- The loop returns only after a poll that sees `ms` ticks gone (R87). -/
theorem le_of_delayLoop_returned {ms start : U16} {gaps : List (List Event)} {s t : State}
    (h : delayLoop ms start gaps s = .returned t) : ms.toNat ≤ (t.clock - start).toNat := by
  induction gaps generalizing s with
  | nil => cases h
  | cons gap gaps ih =>
    cases hgap : runEvents gap s with
    | next u =>
      rw [delayLoop_cons_of_next hgap] at h
      split at h
      · exact ih h
      · rename_i hdone
        cases h
        rwa [delayWaits_iff, Nat.not_lt] at hdone
    | fault f => simp [delayLoop, hgap] at h
    | refused r => simp [delayLoop, hgap] at h

/-- Settles O48: the loop's `start` is the clock at the start. -/
theorem delayNeverReturnsEarly : Obligations.DelayNeverReturnsEarly := by
  unfold Obligations.DelayNeverReturnsEarly
  intro ms gaps s t h
  rw [delay_eq] at h
  exact le_of_delayLoop_returned h

theorem runEvents_tick {s : State} (hs : eventEnabled .tick s = true) :
    runEvents [.tick] s = .next (afterTick s) := by
  simp [runEvents, eventTurn_eq, hs, execEvent_tick]

/-- With `k + 1` ticks to go, as many rounds of one tick each end the loop (R87). -/
theorem delayLoop_ticks {ms start : U16} {s : State} {k : Nat} (hs : eventEnabled .tick s = true)
    (hgo : (s.clock - start).toNat + (k + 1) = ms.toNat) :
    ∃ t, delayLoop ms start (List.replicate (k + 1) [.tick]) s = .returned t ∧ t.clock = start + ms := by
  induction k generalizing s with
  | zero =>
    have hclock : s.clock + 1 = start + ms := by bv_omega
    have hdone : ¬ delayWaits ms start (s.clock + 1) = true := by
      rw [delayWaits_iff, hclock]
      bv_omega
    refine ⟨afterRdclk (afterTick s), ?_, hclock⟩
    rw [List.replicate_succ, delayLoop_cons_of_next (runEvents_tick hs), afterTick_clock, if_neg hdone]
  | succ k ih =>
    have hwaits : delayWaits ms start (s.clock + 1) = true := by
      rw [delayWaits_iff]
      bv_omega
    have hgo' : (s.clock + 1 - start).toNat + (k + 1) = ms.toNat := by bv_omega
    rw [List.replicate_succ, delayLoop_cons_of_next (runEvents_tick hs), afterTick_clock, if_pos hwaits]
    exact ih (s := afterRdclk (afterTick s)) hs hgo'

/-- Settles O49: the first poll ends a `DELAY 0`; any other has `ms` ticks to go there. -/
theorem delayPolledEveryTickReturnsOnTime : Obligations.DelayPolledEveryTickReturnsOnTime := by
  unfold Obligations.DelayPolledEveryTickReturnsOnTime
  intro ms s hs
  have hfirst : runEvents [] (afterRdclk s) = .next (afterRdclk s) := rfl
  rw [delay_eq, delayLoop_cons_of_next hfirst]
  cases hms : ms.toNat with
  | zero =>
    have hzero : ms = 0 := BitVec.eq_of_toNat_eq hms
    refine ⟨_, if_neg ?_, ?_⟩
    · simp [delayWaits_iff, hms]
    · simp [hzero]
  | succ k =>
    rw [if_pos ((delayWaits_iff _ _ _).2 (by simp [hms]))]
    exact delayLoop_ticks (s := afterRdclk (afterRdclk s)) hs (by simp [hms])

/-- Where no event is enabled none occurs (R123). -/
theorem runEvents_of_disabled {s : State} (hs : ∀ e, eventEnabled e s = false) (es : List Event) :
    runEvents es s = .next s := by
  induction es with
  | nil => rfl
  | cons e es ih => simp [runEvents, eventTurn_eq, hs, ih]

/-- With no event enabled every poll reads the same clock, and the loop goes on (R87). -/
theorem delayLoop_of_disabled {ms start : U16} {s : State} (hs : ∀ e, eventEnabled e s = false)
    (hwaits : delayWaits ms start s.clock = true) (gaps : List (List Event)) :
    ∃ t, delayLoop ms start gaps s = .waiting t := by
  induction gaps generalizing s with
  | nil => exact ⟨s, rfl⟩
  | cons gap gaps ih =>
    rw [delayLoop_cons_of_next (runEvents_of_disabled hs gap), if_pos hwaits]
    exact ih (s := afterRdclk s) (fun e => by rw [eventEnabled_afterRdclk, hs]) hwaits

/-- Settles O50: before `TINIT` no event is enabled, and the clock stays at the start. -/
theorem delayHangsBeforeTinit : Obligations.DelayHangsBeforeTinit := by
  unfold Obligations.DelayHangsBeforeTinit
  intro ms gaps s hs htrun hms
  have hgie : s.gie = false := hs.timer_bits.2.trans htrun
  have hdisabled (e : Event) : eventEnabled e (afterRdclk s) = false := by
    rw [eventEnabled_afterRdclk]
    cases e <;> simp [eventEnabled, tickEnabled, drainEnabled, hgie]
  have hwaits : delayWaits ms s.clock s.clock = true := by
    rw [delayWaits_iff]
    bv_omega
  rw [delay_eq]
  exact delayLoop_of_disabled hdisabled hwaits gaps

end Sys2Proof.Machine

/-! PROOFS. The family of spec/41_serial_tx.md: `SINIT`, `SEND` and `@DRAIN` as whole next states, the ring as a
first-in, first-out queue along every trace, and how drains empty it. -/

namespace Sys2Proof.Machine

/-! ### `SINIT`, `SEND` and `@DRAIN`, one rule each -/

/-- The state after a `SEND` (R101): the bytes accepted stand from the old `HEAD` on, the new one is past them. -/
def afterSend (text : List Byte) (s : State) : State :=
  let kept := acceptedBy (.cmd (.send text)) s
  ((s.setTxbuf (storeText s.cfg.txcap s.txbuf s.head kept)).setHead
    ((s.head + kept.length) % s.cfg.txcap)).setDrie true

theorem length_acceptedBy_send (text : List Byte) (s : State) :
    (acceptedBy (.cmd (.send text)) s).length = min text.length (ringFree s.cfg.txcap s.head s.tail) := by
  rw [acceptedBy, List.length_take, Nat.min_comm]

section
variable {s : State} {text : List Byte}

theorem exec_send (hsen : s.sen = true) (hhead : s.head < s.cfg.txcap) (htail : s.tail < s.cfg.txcap) :
    exec (.send text) s = .next (afterSend text s) :=
  execSend_eq_next_iff.2 ⟨hsen, _, appendAll_eq text hhead htail, rfl⟩

/-- A `SEND` appends to the bytes held what it gets accepted (R101). -/
theorem heldCells_afterSend (text : List Byte) (hhead : s.head < s.cfg.txcap) (htail : s.tail < s.cfg.txcap) :
    heldCells (afterSend text s) = heldCells s ++ (acceptedBy (.cmd (.send text)) s).map some :=
  heldCells_storeText _ hhead htail (List.length_take_le _ _)

theorem State.Inv.after_send (hs : s.Inv) (hsen : s.sen = true) (text : List Byte) : (afterSend text s).Inv :=
  hs.send hsen (appendAll_eq text hs.head_lt hs.tail_lt)

/-- A `SEND` of the empty text, or into a full ring, arms the drain and no more (R107). -/
theorem State.Inv.exec_send_of_nothing_to_append (hs : s.Inv) (hsen : s.sen = true)
    (hnothing : text = [] ∨ nexti s.cfg.txcap s.head = s.tail) : exec (.send text) s = .next (s.setDrie true) := by
  have haccepted : acceptedBy (.cmd (.send text)) s = [] := by
    rcases hnothing with rfl | hfull
    · exact List.take_nil
    · rw [acceptedBy, (ringFree_eq_zero_iff hs.head_lt hs.tail_lt).2 hfull, List.take_zero]
  rw [exec_send hsen hs.head_lt hs.tail_lt, afterSend, haccepted]
  simp [storeText, Nat.mod_eq_of_lt hs.head_lt, State.setTxbuf, State.setHead, State.setDrie]

@[simp] theorem eventEnabled_drain (s : State) : eventEnabled .drain s = (s.gie && s.drie) := by
  simp [eventEnabled, drainEnabled]

theorem stimulate_drain (henabled : eventEnabled .drain s = true) :
    stimulate (.event .drain) s = some (execDrain s) := by
  rw [stimulate, if_pos henabled]
  rfl

theorem stimulate_drain_of_empty (henabled : eventEnabled .drain s = true) (hempty : s.head = s.tail) :
    stimulate (.event .drain) s = some (.next (s.setDrie false)) := by
  rw [stimulate_drain henabled, execDrain_eq_next_iff.2 (.inl ⟨hempty, rfl⟩)]

theorem stimulate_drain_of_held {b : Byte} (henabled : eventEnabled .drain s = true) (hheld : s.head ≠ s.tail)
    (htail : s.tail < s.cfg.txcap) (hread : s.txbuf.read s.tail = some b) :
    stimulate (.event .drain) s =
      some (.next ((s.setTail (nexti s.cfg.txcap s.tail)).setTxout (s.txout ++ [b]))) := by
  rw [stimulate_drain henabled, execDrain_eq_next_iff.2 (.inr ⟨hheld, htail, b, hread, rfl⟩)]

theorem stimulate_drain_of_disarmed (hdisarmed : s.drie = false) : stimulate (.event .drain) s = none := by
  simp [stimulate, hdisarmed]

end

/-- Settles O25: the two cases of `SEN`. -/
theorem sinitRecordsTheBaudRate : Obligations.SinitRecordsTheBaudRate := by
  unfold Obligations.SinitRecordsTheBaudRate
  refine fun s baud => ⟨fun hsen => execSinit_eq_next_iff.2 ⟨hsen, rfl⟩, fun hsen => ?_⟩
  show execSinit baud s = .refused .sinitRepeated
  rw [execSinit, atomic_eq_refused_iff]
  simp [enterCritical, hsen]

/-- Settles O26: the next state's `HEAD` and `DRIE` are the rule's, its cells those of the write set (O38). -/
theorem sendStoresWhatFits : Obligations.SendStoresWhatFits := by
  unfold Obligations.SendStoresWhatFits
  refine fun s text => ⟨fun hsen => ?_, fun hsen hhead htail => ?_⟩
  · show execSend text s = .refused .sendBeforeSinit
    rw [execSend, atomic_eq_refused_iff]
    simp [enterCritical, hsen]
  · have hexec := exec_send (text := text) hsen hhead htail
    obtain ⟨-, hcells⟩ := stimuliKeepToTheirWriteSets (.cmd (.send text)) s _ (congrArg some hexec)
    refine ⟨_, hexec, ?_, hcells hhead htail⟩
    rw [← length_acceptedBy_send]
    rfl

/-- Settles O27: the two cases of `@DRAIN`. -/
theorem drainMovesOneByteOrDisarms : Obligations.DrainMovesOneByteOrDisarms := by
  unfold Obligations.DrainMovesOneByteOrDisarms
  exact fun s => ⟨eventEnabled_drain s, fun hempty => execDrain_eq_next_iff.2 (.inl ⟨hempty, rfl⟩),
    fun b hheld htail hread => execDrain_eq_next_iff.2 (.inr ⟨hheld, htail, b, hread, rfl⟩)⟩

end Sys2Proof.Machine

/-! ### First in, first out -/

namespace Sys2Proof.Machine

/-- What the block has transmitted and still holds, oldest first: the sequence that R104 compares. -/
def transmittedAndHeld (s : State) : List (Option Byte) := s.txout.map some ++ heldCells s

/-- A drain moves the oldest byte held to the end of those transmitted (R103). -/
theorem State.Inv.transmittedAndHeld_drainByte {s : State} {b : Byte} (hs : s.Inv) (hheld : s.head ≠ s.tail)
    (hread : s.txbuf.read s.tail = some b) :
    transmittedAndHeld ((s.setTail (nexti s.cfg.txcap s.tail)).setTxout (s.txout ++ [b])) = transmittedAndHeld s :=
  calc (s.txout ++ [b]).map some ++ heldCells (s.setTail (nexti s.cfg.txcap s.tail))
      = s.txout.map some ++ some b :: heldCells (s.setTail (nexti s.cfg.txcap s.tail)) := by simp
    _ = transmittedAndHeld s := by
      rw [transmittedAndHeld, heldCells_cons hs.head_lt hs.tail_lt hheld, hread]

/-- A stimulus appends to this sequence what it gets accepted (R104). -/
theorem Effect.transmittedAndHeld_eq {x : Stimulus} {s t : State} (h : Effect x s t) (hs : s.Inv) :
    transmittedAndHeld t = transmittedAndHeld s ++ (acceptedBy x s).map some := by
  cases h with
  | send hsen happend =>
    rename_i text m k
    obtain ⟨rfl, rfl⟩ := appendAll_closed hs.head_lt hs.tail_lt happend
    have hheld := heldCells_afterSend text hs.head_lt hs.tail_lt
    exact (congrArg (s.txout.map some ++ ·) hheld).trans (List.append_assoc _ _ _).symm
  | drainByte _ hheld _ hread => simpa [acceptedBy] using hs.transmittedAndHeld_drainByte hheld hread
  | _ => exact (List.append_nil _).symm

/-- Settles O28, by induction on the trace; every stimulus of it keeps the invariants. -/
theorem transmitIsFirstInFirstOut : Obligations.TransmitIsFirstInFirstOut := by
  unfold Obligations.TransmitIsFirstInFirstOut
  intro xs s t hs hrun
  change transmittedAndHeld t = transmittedAndHeld s ++ (acceptedOver xs s).map some
  induction xs generalizing s with
  | nil =>
    cases hrun
    exact (List.append_nil _).symm
  | cons x xs ih =>
    obtain ⟨u, hu, hrun⟩ := runTrace_cons_eq_next hrun
    have heffect := stimulate_effect hu
    rw [ih u (heffect.keeps_inv hs) hrun, heffect.transmittedAndHeld_eq hs, acceptedOver, hu]
    simp

/-- Settles O31: the bytes held then number the old ones and the free space, which is `TXCAP - 1` (R19). -/
theorem overflowKeepsTheFirstFreeBytes : Obligations.OverflowKeepsTheFirstFreeBytes := by
  unfold Obligations.OverflowKeepsTheFirstFreeBytes
  refine fun s text hs hsen (hlong : ringFree s.cfg.txcap s.head s.tail < text.length) => ?_
  have hafter := hs.after_send hsen text
  have hheld := heldCells_afterSend text hs.head_lt hs.tail_lt
  refine ⟨_, exec_send hsen hs.head_lt hs.tail_lt, hheld, ?_, rfl, rfl⟩
  rw [nexti_eq_tail_iff hafter.head_lt hafter.tail_lt]
  have hcount := congrArg List.length hheld
  simp only [heldCells, length_cellsFrom, List.length_append, List.length_map, length_acceptedBy_send] at hcount
  have hroom := ringCount_lt hs.head_lt hs.tail_lt
  have hcfg : (afterSend text s).cfg = s.cfg := rfl
  rw [hcount, hcfg, Nat.min_eq_right hlong.le, ringFree]
  omega

end Sys2Proof.Machine

/-! ### Runs of drains -/

namespace Sys2Proof.Machine

/-- The state after drains have transmitted all the bytes held (R104). -/
def afterDrains (bytes : List Byte) (s : State) : State := (s.setTxout (s.txout ++ bytes)).setTail s.head

theorem afterDrains_nil {s : State} (hempty : s.head = s.tail) : afterDrains [] s = s := by
  cases s
  simp_all [afterDrains, State.setTxout, State.setTail]

theorem length_heldCells (s : State) : (heldCells s).length = ringCount s.cfg.txcap s.head s.tail :=
  length_cellsFrom _ _ _ _

theorem State.Inv.heldCells_eq_nil_iff {s : State} (hs : s.Inv) : heldCells s = [] ↔ s.head = s.tail := by
  rw [← List.length_eq_zero_iff, length_heldCells, ringCount_eq_zero_iff hs.head_lt hs.tail_lt]

/-- Every cell held has been written: the cells held are bytes (R50). -/
theorem State.Inv.held_bytes {s : State} (hs : s.Inv) : ∃ bytes : List Byte, heldCells s = bytes.map some := by
  have hrange : heldCells s ∈ Set.range (List.map (some : Byte → Option Byte)) := by
    rw [Set.range_list_map]
    exact fun cell hcell => Option.ne_none_iff_exists.1 fun hnone => hs.held_written (hnone ▸ hcell)
  obtain ⟨bytes, hbytes⟩ := hrange
  exact ⟨bytes, hbytes.symm⟩

/-- As many drains as bytes held transmit them all, in order (R104). -/
theorem State.Inv.runTrace_drainsTrace {s : State} {bytes : List Byte} (hs : s.Inv)
    (henabled : eventEnabled .drain s = true) (hheld : heldCells s = bytes.map some) :
    runTrace (drainsTrace bytes.length) s = some (.next (afterDrains bytes s)) := by
  induction bytes generalizing s with
  | nil =>
    rw [afterDrains_nil (hs.heldCells_eq_nil_iff.1 hheld)]
    rfl
  | cons b bs ih =>
    have hne : s.head ≠ s.tail := mt hs.heldCells_eq_nil_iff.2 (by simp [hheld])
    rw [heldCells_cons hs.head_lt hs.tail_lt hne, List.map_cons, List.cons.injEq] at hheld
    obtain ⟨hread, hrest⟩ := hheld
    have hdrain := stimulate_drain_of_held henabled hne hs.tail_lt hread
    rw [List.length_cons, drainsTrace, List.replicate_succ, runTrace_cons_of_next hdrain]
    refine (ih (hs.drainByte hne (s.txout ++ [b])) henabled hrest).trans ?_
    simp [afterDrains, State.setTxout, State.setTail]

/-- Settles O29: the drained ring is empty, so one drain more disarms it, and the next is not enabled. -/
theorem drainsEmptyTheRingAndDisarm : Obligations.DrainsEmptyTheRingAndDisarm := by
  unfold Obligations.DrainsEmptyTheRingAndDisarm
  intro s hs hgie hdrie c
  have henabled : eventEnabled .drain s = true := by simp [hgie, hdrie]
  obtain ⟨bytes, hheld⟩ := hs.held_bytes
  have hlen : bytes.length = c := by simpa [hheld] using length_heldCells s
  have hdrained := hs.runTrace_drainsTrace henabled hheld
  have hidle : stimulate (.event .drain) (afterDrains bytes s) = some (.next ((afterDrains bytes s).setDrie false)) :=
    stimulate_drain_of_empty henabled rfl
  have hmore (k : Nat) : runTrace (drainsTrace (c + k)) s = runTrace (drainsTrace k) (afterDrains bytes s) := by
    rw [← hlen, drainsTrace, List.replicate_add]
    exact runTrace_append hdrained _
  have hdisarmed : stimulate (.event .drain) ((afterDrains bytes s).setDrie false) = none :=
    stimulate_drain_of_disarmed rfl
  refine ⟨bytes, hheld, hlen, hmore 0, (hmore 1).trans (runTrace_cons_of_next hidle _),
    (hmore 2).trans ((runTrace_cons_of_next hidle _).trans ?_)⟩
  simp [runTrace, hdisarmed]

/-- Settles O30: an empty ring accepts the whole text, and then holds just that. -/
theorem sendThenDrainRoundTrip : Obligations.SendThenDrainRoundTrip := by
  unfold Obligations.SendThenDrainRoundTrip
  intro s text hs hsen hgie hempty hlen
  have hcount := (ringCount_eq_zero_iff hs.head_lt hs.tail_lt).2 hempty
  have haccepted : acceptedBy (.cmd (.send text)) s = text :=
    List.take_of_length_le (by rwa [ringFree, hcount])
  have hheld : heldCells (afterSend text s) = text.map some := by
    rw [heldCells_afterSend text hs.head_lt hs.tail_lt, hs.heldCells_eq_nil_iff.2 hempty, haccepted, List.nil_append]
  have hsend : stimulate (.cmd (.send text)) s = some (.next (afterSend text s)) :=
    congrArg some (exec_send hsen hs.head_lt hs.tail_lt)
  refine ⟨afterDrains text (afterSend text s), ?_, rfl, rfl⟩
  rw [runTrace_cons_of_next hsend]
  refine (hs.after_send hsen text).runTrace_drainsTrace ?_ hheld
  simp [afterSend, hgie]

/-- Settles O32: the empty `SEND` only arms the drain, which then finds the ring empty. -/
theorem emptySendCostsOneIdleDrain : Obligations.EmptySendCostsOneIdleDrain := by
  unfold Obligations.EmptySendCostsOneIdleDrain
  refine ⟨fun s text => State.Inv.exec_send_of_nothing_to_append, fun s hs hsen hgie hempty => ?_,
    fun s hdisarmed => stimulate_drain_of_disarmed hdisarmed⟩
  have harmed : stimulate (.cmd (.send [])) s = some (.next (s.setDrie true)) :=
    congrArg some (hs.exec_send_of_nothing_to_append hsen (.inl rfl))
  have hidle : stimulate (.event .drain) (s.setDrie true) = some (.next ((s.setDrie true).setDrie false)) :=
    stimulate_drain_of_empty (by simp [hgie]) hempty
  rw [runTrace_cons_of_next harmed, runTrace_cons_of_next hidle]
  rfl

end Sys2Proof.Machine

/-! PROOFS. The family of spec/60_exceptions.md: the refusals, when an event's turn runs its event, the mask
around every step, and which stimuli commute. -/

/-! ### Refusals -/

namespace Sys2Proof.Machine

theorem execTinit_eq_refused_iff {s : State} {r : Refusal} :
    execTinit s = .refused r ↔ s.trun = true ∧ r = .tinitRepeated := by
  rw [execTinit, atomic_eq_refused_iff]
  cases htrun : s.trun <;> simp [enterCritical, htrun, eq_comm]

theorem execSinit_eq_refused_iff {baud : U32} {s : State} {r : Refusal} :
    execSinit baud s = .refused r ↔ s.sen = true ∧ r = .sinitRepeated := by
  rw [execSinit, atomic_eq_refused_iff]
  cases hsen : s.sen <;> simp [enterCritical, hsen, eq_comm]

theorem execSend_eq_refused_iff {text : List Byte} {s : State} {r : Refusal} :
    execSend text s = .refused r ↔ s.sen = false ∧ r = .sendBeforeSinit := by
  rw [execSend, atomic_eq_refused_iff]
  cases hsen : s.sen with
  | false => simp [enterCritical, hsen, eq_comm]
  | true =>
    simp only [enterCritical, State.setGie_sen, hsen, if_true]
    cases appendAll text (s.setGie false) <;> simp

/-- Settles O41: three commands have a refusal, the other three always answer. -/
theorem refusedExactlyAsListed : Obligations.RefusedExactlyAsListed := by
  unfold Obligations.RefusedExactlyAsListed
  intro i s r
  cases i with
  | tinit => simpa [exec] using execTinit_eq_refused_iff
  | tadd action period => simp [exec_tadd]
  | rdclk => simp [exec_rdclk]
  | capture => simp [exec_capture]
  | sinit baud => simpa [exec] using execSinit_eq_refused_iff
  | send text => simpa [exec] using execSend_eq_refused_iff

end Sys2Proof.Machine

/-! ### Enabling and masking -/

namespace Sys2Proof.Machine

theorem eventEnabled_tick_iff (s : State) :
    eventEnabled .tick s = true ↔ s.trun = true ∧ s.tie = true ∧ s.gie = true := by
  simp [eventEnabled, tickEnabled, and_assoc]

theorem eventEnabled_drain_iff (s : State) : eventEnabled .drain s = true ↔ s.gie = true ∧ s.drie = true := by
  rw [eventEnabled_drain, Bool.and_eq_true]

/-- A named agent's step is its turn, taken off the list. -/
theorem step_of_turns_cons {s : State} {turn : Turn} {later : List Turn} (h : s.turns = turn :: later) :
    step s = runTurn turn (s.setTurns later) := by
  simp [step, h]

/-- Settles O8: an event's turn is the event's step or nothing, as the event is enabled or not (R123). -/
theorem stepTakesExactlyEnabledEvents : Obligations.StepTakesExactlyEnabledEvents := by
  unfold Obligations.StepTakesExactlyEnabledEvents
  refine ⟨fun s later hturns => ?_, fun s later hturns => ?_⟩
  · rw [step_of_turns_cons hturns, runTurn, eventTurn_eq]
    simp only [eventEnabled_tick_iff]
    rfl
  · rw [step_of_turns_cons hturns, runTurn, eventTurn_eq]
    simp only [eventEnabled_drain_iff]
    rfl

/-- With `GIE = 0` neither event is enabled (R123). -/
theorem eventEnabled_of_masked {s : State} (h : s.gie = false) (e : Event) : eventEnabled e s = false := by
  cases e <;> simp [eventEnabled, tickEnabled, drainEnabled, h]

theorem stimulate_event_of_disabled {e : Event} {s : State} (h : eventEnabled e s = false) :
    stimulate (.event e) s = none := by
  simp [stimulate, h]

/-- Settles O36: the three timer bits are one (R123). -/
theorem noEventBeforeTinit : Obligations.NoEventBeforeTinit := by
  unfold Obligations.NoEventBeforeTinit
  intro s hs
  obtain ⟨htie, hgie⟩ := hs.timer_bits
  refine ⟨?_, hgie, fun htrun e => ?_⟩
  · simp [eventEnabled, tickEnabled, htie, hgie]
  · exact stimulate_event_of_disabled (eventEnabled_of_masked (hgie.trans htrun) e)

/-- `TINIT` leaves `GIE` at 1, every other stimulus as it was (R125). -/
theorem Effect.gie_eq {x : Stimulus} {s t : State} (h : Effect x s t) :
    t.gie = if x = .cmd .tinit then true else s.gie := by
  cases h <;> simp

/-- Settles O35: a step is its body between the mask and its lifting (R125, R126). -/
theorem everyStepMasksAndRestores : Obligations.EveryStepMasksAndRestores := by
  unfold Obligations.EveryStepMasksAndRestores
  refine ⟨fun body s e => ⟨rfl, eventEnabled_of_masked rfl e, fun t hstep => ?_⟩,
    fun x s t hstep => (stimulate_effect hstep).gie_eq⟩
  exact atomic_eq_next_iff.1 hstep

end Sys2Proof.Machine

/-! ### Stimuli that commute

`@TICK`, `TADD`, `RDCLK` and `CAPTURE` write `CLOCK`, the task table and `RESP` only, as functions of these
three; `SINIT`, `SEND` and `@DRAIN` neither read nor write them (R24). -/

namespace Sys2Proof.Machine

/-- `CLOCK`, the task table and `RESP`. -/
abbrev SchedulerPart := U16 × Vector (Option Task) 10 × List Byte

/-- A change of the scheduler's part that depends on this part only. -/
def State.mapScheduler (f : SchedulerPart → SchedulerPart) (s : State) : State :=
  let (clock, tasks, resp) := f (s.clock, s.tasks, s.resp)
  ((s.setClock clock).setTasks tasks).setResp resp

/-- The update is a change of the scheduler's part alone. -/
def WritesScheduler (g : State → State) : Prop := ∃ f, ∀ s, g s = s.mapScheduler f

theorem afterTick_writesScheduler : WritesScheduler afterTick :=
  ⟨fun (clock, tasks, resp) => (clock + 1, scanSlots (tickSlot (clock + 1)) tasks, resp), fun _ => rfl⟩

theorem register_writesScheduler (τ : Task) : WritesScheduler fun s => s.setTasks (register s.tasks τ) :=
  ⟨fun (clock, tasks, resp) => (clock, register tasks τ, resp), fun _ => rfl⟩

theorem afterRdclk_writesScheduler : WritesScheduler afterRdclk :=
  ⟨fun (clock, tasks, resp) => (clock, tasks, resp ++ clockResponse clock), fun _ => rfl⟩

theorem afterCapture_writesScheduler : WritesScheduler afterCapture :=
  ⟨fun (clock, tasks, resp) => (clock, scanSlots captureSlot tasks, resp ++ captureResponse (snapshot tasks)),
    fun _ => rfl⟩

/-- The outcome with its next state, if it has one, changed by `g`. -/
def mapNext (g : State → State) : StepOutcome → StepOutcome
  | .next t => .next (g t)
  | .fault f => .fault f
  | .refused r => .refused r

@[simp] theorem mapNext_next (g : State → State) (t : State) : mapNext g (.next t) = .next (g t) := rfl
@[simp] theorem mapNext_fault (g : State → State) (f : Fault) : mapNext g (.fault f) = .fault f := rfl
@[simp] theorem mapNext_refused (g : State → State) (r : Refusal) : mapNext g (.refused r) = .refused r := rfl

/-- The body neither reads nor writes the scheduler's part: a change of that part goes through it unseen. -/
def IgnoresScheduler (body : State → StepOutcome) : Prop :=
  ∀ f s, body (s.mapScheduler f) = mapNext (State.mapScheduler f) (body s)

/-- The mask of a step is no part of the scheduler's. -/
theorem IgnoresScheduler.atomic {body : State → StepOutcome} (h : IgnoresScheduler body) :
    IgnoresScheduler (atomic body) := by
  intro f s
  have hbody : body (enterCritical (s.mapScheduler f)) = _ := h f (enterCritical s)
  rw [Machine.atomic, Machine.atomic, hbody]
  cases body (enterCritical s) <;> rfl

section
variable (f : SchedulerPart → SchedulerPart) (s : State)

@[simp] theorem State.mapScheduler_cfg : (s.mapScheduler f).cfg = s.cfg := rfl
@[simp] theorem State.mapScheduler_sen : (s.mapScheduler f).sen = s.sen := rfl

theorem memWrite_mapScheduler (i : Nat) (b : Byte) :
    memWrite (s.mapScheduler f) i b = (memWrite s i b).map (State.mapScheduler f) := by
  rw [memWrite, memWrite, State.mapScheduler_cfg, apply_ite (Except.map (State.mapScheduler f))]
  rfl

theorem append_mapScheduler (b : Byte) :
    append (s.mapScheduler f) b = (append s b).map (State.mapScheduler f) := by
  have hindex : appendIndex (s.mapScheduler f) = appendIndex s := rfl
  rw [append, append, hindex, memWrite_mapScheduler]
  cases memWrite s (appendIndex s) b <;> rfl

theorem appendAll_mapScheduler (text : List Byte) :
    appendAll text (s.mapScheduler f) = (appendAll text s).map (State.mapScheduler f) := by
  induction text generalizing s with
  | nil => rfl
  | cons b bs ih =>
    have hfull : ringFull (s.mapScheduler f) = ringFull s := rfl
    simp only [appendAll, hfull, append_mapScheduler]
    split
    · rfl
    · cases append s b with
      | ok t => exact ih t
      | error e => rfl

theorem remove_mapScheduler :
    remove (s.mapScheduler f) = (remove s).map (Prod.map id (State.mapScheduler f)) := by
  have hread : memRead (s.mapScheduler f) (removeIndex (s.mapScheduler f)) = memRead s (removeIndex s) := rfl
  rw [remove, remove, hread]
  cases memRead s (removeIndex s) <;> rfl

end

theorem execSinit_ignoresScheduler (baud : U32) : IgnoresScheduler (execSinit baud) := by
  refine IgnoresScheduler.atomic fun f s => ?_
  rw [State.mapScheduler_sen]
  cases s.sen <;> rfl

theorem execSend_ignoresScheduler (text : List Byte) : IgnoresScheduler (execSend text) := by
  refine IgnoresScheduler.atomic fun f s => ?_
  rw [State.mapScheduler_sen, appendAll_mapScheduler]
  cases s.sen with
  | false => rfl
  | true => cases appendAll text s <;> rfl

theorem execDrain_ignoresScheduler : IgnoresScheduler execDrain := by
  refine IgnoresScheduler.atomic fun f s => ?_
  have hempty : ringEmpty (s.mapScheduler f) = ringEmpty s := rfl
  rw [hempty, remove_mapScheduler]
  cases ringEmpty s with
  | false => cases remove s <;> rfl
  | true => rfl

/-- Where `x` answers by `g`, before `y` and after it, and `y` lets `g` through, their order does not matter. -/
theorem runTrace_swap {x y : Stimulus} {g : State → State} {s : State}
    (hbefore : stimulate x s = some (.next (g s)))
    (hafter : ∀ t, stimulate y s = some (.next t) → stimulate x t = some (.next (g t)))
    (hthrough : stimulate y (g s) = (stimulate y s).map (mapNext g)) :
    runTrace [x, y] s = runTrace [y, x] s := by
  rw [runTrace_cons_of_next hbefore]
  cases hy : stimulate y s with
  | none => simp [runTrace, hthrough, hy]
  | some o =>
    cases o with
    | next t => simp [runTrace, hthrough, hy, hafter t hy]
    | fault e => simp [runTrace, hthrough, hy]
    | refused r => simp [runTrace, hthrough, hy]

section
variable {g : State → State}

theorem stimulate_cmd_of_writesScheduler {i : Instr} (hi : IgnoresScheduler (exec i)) (hg : WritesScheduler g)
    (s : State) : stimulate (.cmd i) (g s) = (stimulate (.cmd i) s).map (mapNext g) := by
  obtain ⟨f, hf⟩ := hg
  obtain rfl : g = State.mapScheduler f := funext hf
  exact congrArg some (hi f s)

theorem stimulate_drain_of_writesScheduler (hg : WritesScheduler g) (s : State) :
    stimulate (.event .drain) (g s) = (stimulate (.event .drain) s).map (mapNext g) := by
  obtain ⟨f, hf⟩ := hg
  obtain rfl : g = State.mapScheduler f := funext hf
  have henabled : eventEnabled .drain (s.mapScheduler f) = eventEnabled .drain s := rfl
  have hdrain : execEvent .drain (s.mapScheduler f) = _ := execDrain_ignoresScheduler f s
  rw [stimulate, stimulate, henabled, hdrain]
  split <;> rfl

/-- No stimulus disables the tick, so it commutes with all that lets its update through. -/
theorem runTrace_swap_tick {s : State} {y : Stimulus} (hs : eventEnabled .tick s = true)
    (hthrough : stimulate y (afterTick s) = (stimulate y s).map (mapNext afterTick)) :
    runTrace [.event .tick, y] s = runTrace [y, .event .tick] s :=
  runTrace_swap (stimulate_tick hs)
    (fun _ ht => stimulate_tick ((stimulate_effect ht).keeps_tick_enabled hs)) hthrough

/-- A drain commutes with every command that always answers, by an update of the scheduler's part. -/
theorem runTrace_swap_drain {i : Instr} (hi : ∀ t, exec i t = .next (g t)) (hg : WritesScheduler g) (s : State) :
    runTrace [.event .drain, .cmd i] s = runTrace [.cmd i, .event .drain] s := by
  have hanswers : ∀ t, stimulate (.cmd i) t = some (.next (g t)) := fun t => congrArg some (hi t)
  exact (runTrace_swap (hanswers s) (fun t _ => hanswers t) (stimulate_drain_of_writesScheduler hg s)).symm

end

/-- Settles O37: of each pair one stimulus writes the scheduler's part alone, and the other ignores it (R24, R124). -/
theorem independentStimuliCommute : Obligations.IndependentStimuliCommute := by
  unfold Obligations.IndependentStimuliCommute
  have hwrites := afterTick_writesScheduler
  refine ⟨fun s htick _ => ?_, fun s htick => ⟨fun baud => ?_, fun text => ?_⟩,
    fun s _ => ⟨fun a p => ?_, ?_, ?_⟩⟩
  · exact runTrace_swap_tick htick (stimulate_drain_of_writesScheduler hwrites s)
  · exact runTrace_swap_tick htick
      (stimulate_cmd_of_writesScheduler (i := .sinit baud) (execSinit_ignoresScheduler baud) hwrites s)
  · exact runTrace_swap_tick htick
      (stimulate_cmd_of_writesScheduler (i := .send text) (execSend_ignoresScheduler text) hwrites s)
  · exact runTrace_swap_drain (exec_tadd a p) (register_writesScheduler (newTask a p)) s
  · exact runTrace_swap_drain exec_rdclk afterRdclk_writesScheduler s
  · exact runTrace_swap_drain exec_capture afterCapture_writesScheduler s

end Sys2Proof.Machine

/-! ### Turns that pass -/

namespace Sys2Proof.Machine

/-- The host's turn passes where no command is presented (log entry 6). -/
theorem hostTurn_of_empty {s : State} (h : s.cmdIn = []) : hostTurn s = .next s := by
  simp [hostTurn, h]

/-- An event's turn passes where the event is not enabled (log entry 5). -/
theorem eventTurn_of_disabled {e : Event} {s : State} (h : eventEnabled e s = false) :
    eventTurn e s = .next s := by
  simp [eventTurn, stimulate_event_of_disabled h]

/-- With no command and both events masked, every agent's turn passes. -/
theorem runTurn_of_idle {s : State} (hcmd : s.cmdIn = []) (hgie : s.gie = false) (turn : Turn) :
    runTurn turn s = .next s := by
  cases turn with
  | host => exact hostTurn_of_empty hcmd
  | tick => exact eventTurn_of_disabled (eventEnabled_of_masked hgie .tick)
  | txe => exact eventTurn_of_disabled (eventEnabled_of_masked hgie .drain)

/-- Settles O9: the step is the host's turn, which finds no command. -/
theorem emptyStreamLeavesTheBlockIdle : Obligations.EmptyStreamLeavesTheBlockIdle := by
  unfold Obligations.EmptyStreamLeavesTheBlockIdle
  intro s hhost hcmd
  have hcmd' : (afterTurn s).cmdIn = [] := hcmd
  rw [step_of_hostIsNext hhost, hostTurn_of_empty hcmd']
  rfl

/-- Settles O46: reset leaves `GIE = 0` and no command, so the turn of whichever agent is next passes (R140). -/
theorem resetBlockDoesNothingByItself : Obligations.ResetBlockDoesNothingByItself := by
  unfold Obligations.ResetBlockDoesNothingByItself
  intro c turns
  refine ⟨eventEnabled_of_masked rfl, ?_⟩
  rw [step_eq, runTurn_of_idle rfl rfl]
  rfl

end Sys2Proof.Machine
